-- ==== Sys2Proof/Word.lean ====
section
/-! DEFINITION. The data types the spec gives the machine's values: bytes and register indices
(10_state.md R20, 20_memory.md R40, 00_scope.md R9). -/

namespace Sys2Proof

/-- One memory cell, one register, one instruction byte: an unsigned 8-bit value (R9, R20, R40). -/
abbrev Byte := BitVec 8

/-- A legal register index, 0 to 7 (10_state.md R20, R23). -/
abbrev Reg := Fin 8

end Sys2Proof
end

