-- ==== Sys2Proof/Config.lean ====
section
/-! DEFINITION. The implementation parameters of 00_scope.md R7: the sizes fixed by the source, and the
types of the parameters that stay open (OPCODE_MAP, EXT_ALU, STEP_CAP, CANCEL). Their default values
are OpcodeMap.default (Decode.lean) and Params.default (Machine/Params.lean). -/

namespace Sys2Proof

/-- MEM_SIZE (00_scope.md R7, 20_memory.md R40). -/
abbrev Config.memSize : Nat := 256

/-- OPCODE_MAP (30_encoding.md R67): one byte per instruction. The bytes of SUB and DIV are used only
when EXT_ALU is true (R68). -/
structure OpcodeMap where
  hlt  : Byte
  ret  : Byte
  push : Byte
  pop  : Byte
  prn  : Byte
  call : Byte
  ldi  : Byte
  add  : Byte
  mul  : Byte
  sub  : Byte
  div  : Byte
  deriving DecidableEq, Repr

/-- CANCEL (40_execution_loop.md R104): absent, or present with what the host will signal. Sample `k`
is the one read at the start of the iteration that begins with `k` instructions completed; past the
end of the list the host does not signal. When the host signals is a free input of the machine, so
it is data of the state and every statement is about every schedule (log entry 4). -/
inductive CancelInput where
  | absent
  | present (samples : List Bool)
  deriving DecidableEq, Repr

/-- The parameters fixed when a machine is constructed (00_scope.md R7; log entry 2). -/
structure Params where
  opcodeMap : OpcodeMap
  extAlu    : Bool
  stepCap   : Option Nat
  cancel    : CancelInput
  deriving DecidableEq, Repr

end Sys2Proof
end

