-- ==== Sys2Proof/Syntax.lean ====
section
/-! DEFINITION. The instructions: one constructor of `Instr` per row of spec/opcode_table.json, with
the operand bytes the spec gives it (30_encoding.md R61 to R63), and the names the decoder gives. -/

namespace Sys2Proof

/-- An instruction. `a` and `b` are the latched operand bytes (00_scope.md R11). A register operand
is the raw byte: one of 8 or more is legal to write down and faults at dispatch (10_state.md R23,
30_encoding.md R73). -/
inductive Instr where
  | hlt
  | ret
  | push (a : Byte)
  | pop  (a : Byte)
  | prn  (a : Byte)
  | call (a : Byte)
  | ldi  (a b : Byte)
  | add  (a b : Byte)
  | mul  (a b : Byte)
  | sub  (a b : Byte)
  | div  (a b : Byte)
  deriving DecidableEq, Repr

/-- The instruction an opcode byte names, without operands: `ins` of 40_execution_loop.md R85. -/
inductive Op where
  | hlt | ret | push | pop | prn | call | ldi | add | mul | sub | div
  deriving DecidableEq, Repr

/-- The ALU's operation select, a closed enumeration (42_alu.md R120, R123). -/
inductive AluOp where
  | add | sub | mul | div
  deriving DecidableEq, Repr

end Sys2Proof
end

