-- ==== Sys2Proof/WellFormed.lean ====
section
/-! DEFINITION. Well-formed instructions: every operand used as a register index is 0 to 7
(10_state.md R23, 30_encoding.md R62). -/

namespace Sys2Proof

/-- A register operand is legal when its byte is at most 7 (10_state.md R23). -/
def regOk (r : Byte) : Bool := decide (r.toNat < 8)

/-- The operands each instruction uses as register indices are legal: the table of
40_execution_loop.md R91. LDI's `b` is an immediate and is never checked. -/
def Instr.wf : Instr → Bool
  | .hlt      => true
  | .ret      => true
  | .push a   => regOk a
  | .pop a    => regOk a
  | .prn a    => regOk a
  | .call a   => regOk a
  | .ldi a _  => regOk a
  | .add a b  => regOk a && regOk b
  | .mul a b  => regOk a && regOk b
  | .sub a b  => regOk a && regOk b
  | .div a b  => regOk a && regOk b

end Sys2Proof
end

