-- ==== Sys2Proof/Decode.lean ====
section
/-! DEFINITION. The instruction decoder of 40_execution_loop.md R85 and the encodings of
30_encoding.md, with the encoder written from the same tables. -/

namespace Sys2Proof

/-! ## The opcode byte -/

/-- `op[7:6]`, the operand-count class (30_encoding.md R60). -/
def opClass (op : Byte) : BitVec 2 := op.extractLsb' 6 2

/-- The operand count of the instruction table (30_encoding.md R66). -/
def Op.operandCount : Op → Nat
  | .hlt | .ret => 0
  | .push | .pop | .prn | .call => 1
  | .ldi | .add | .mul | .sub | .div => 2

/-- The encoded length in bytes of the instruction table (30_encoding.md R61, R66). -/
def Op.length (o : Op) : Nat := o.operandCount + 1

/-- The ALU operation an ALU instruction selects (40_execution_loop.md R88). -/
def Op.aluOp? : Op → Option AluOp
  | .add => some .add
  | .sub => some .sub
  | .mul => some .mul
  | .div => some .div
  | .hlt | .ret | .push | .pop | .prn | .call | .ldi => none

/-- The closed instruction table: 9 instructions, 11 with EXT_ALU (30_encoding.md R66, R68). -/
def Op.table (extAlu : Bool) : List Op :=
  [.hlt, .ret, .push, .pop, .prn, .call, .ldi, .add, .mul] ++
    (if extAlu then [.sub, .div] else [])

/-! ## OPCODE_MAP -/

/-- The byte a map gives an instruction (30_encoding.md R67). -/
def OpcodeMap.byte (m : OpcodeMap) : Op → Byte
  | .hlt  => m.hlt
  | .ret  => m.ret
  | .push => m.push
  | .pop  => m.pop
  | .prn  => m.prn
  | .call => m.call
  | .ldi  => m.ldi
  | .add  => m.add
  | .mul  => m.mul
  | .sub  => m.sub
  | .div  => m.div

/-- The default byte values of 30_encoding.md R66. UNVERIFIED: the spec gives them and marks them as
general knowledge, not in its source (93_implementation_defined.md K2, K3; log entry 1). -/
def OpcodeMap.default : OpcodeMap :=
  { hlt := 0x01, ret := 0x11, push := 0x45, pop := 0x46, prn := 0x47, call := 0x50,
    ldi := 0x82, add := 0xA0, mul := 0xA2, sub := 0xA1, div := 0xA3 }

/-- The three conditions of 30_encoding.md R67 on the instructions of the table: (a) injective,
(b) bits 7:6 equal the operand count, (c) no byte of class 3. DESIGN CHOICE: these are the only
conditions, so a map may give 0x00 to HLT or RET, where R70 calls 0x00 illegal and R67 says every rule
holds for every such map; under such a map 0x00 executes (log entry 19). -/
def OpcodeMap.admissible (m : OpcodeMap) (extAlu : Bool) : Bool :=
  decide ((Op.table extAlu).map m.byte).Nodup &&
  (Op.table extAlu).all (fun o => decide ((opClass (m.byte o)).toNat = o.operandCount)) &&
  (Op.table extAlu).all (fun o => decide (opClass (m.byte o) ≠ 3#2))

/-! ## Decoding -/

/-- What the decoder produces for a legal opcode byte (40_execution_loop.md R85, R88). -/
structure Decoded where
  ins   : Op
  cls   : BitVec 2
  len   : Nat
  aluop : Option AluOp
  deriving DecidableEq, Repr

/-- Why bytes are no instruction. The first two are the cases of 30_encoding.md R69; `truncated` is a
byte list that ends inside an instruction, which the fetch unit never hands over
(40_execution_loop.md R81). -/
inductive DecodeError where
  | unusedClass (op : Byte)
  | notInTable  (op : Byte)
  | truncated
  deriving DecidableEq, Repr

/-- The whole-byte lookup (30_encoding.md R65, 40_execution_loop.md R85). -/
def lookup (m : OpcodeMap) (extAlu : Bool) (op : Byte) : Option Op :=
  (Op.table extAlu).find? (fun o => m.byte o == op)

/-- `decode(IR)` of 40_execution_loop.md R85: the class is tested first, then the whole byte. -/
def decodeOp (m : OpcodeMap) (extAlu : Bool) (op : Byte) : Except DecodeError Decoded :=
  if opClass op = 3#2 then .error (.unusedClass op)
  else
    match lookup m extAlu op with
    | none => .error (.notInTable op)
    | some o =>
      .ok { ins := o, cls := opClass op, len := (opClass op).toNat + 1, aluop := o.aluOp? }

/-- The instruction with its operands: the handler takes both latched bytes and ignores those it
does not use (30_encoding.md R63, R64). -/
def Op.withOperands (o : Op) (a b : Byte) : Instr :=
  match o with
  | .hlt  => .hlt
  | .ret  => .ret
  | .push => .push a
  | .pop  => .pop a
  | .prn  => .prn a
  | .call => .call a
  | .ldi  => .ldi a b
  | .add  => .add a b
  | .mul  => .mul a b
  | .sub  => .sub a b
  | .div  => .div a b

/-- The instruction of the three latched bytes (40_execution_loop.md R80, R85). -/
def decode (m : OpcodeMap) (extAlu : Bool) (ir a b : Byte) : Except DecodeError Instr :=
  match decodeOp m extAlu ir with
  | .ok d    => .ok (d.ins.withOperands a b)
  | .error e => .error e

/-- Decoding a byte list: the instruction at its head and the bytes after it, whose number the
opcode byte alone decides (30_encoding.md R71). -/
def decodeBytes (m : OpcodeMap) (extAlu : Bool) (bytes : List Byte) :
    Except DecodeError (Instr × List Byte) :=
  match bytes with
  | [] => .error .truncated
  | op :: rest =>
    match decodeOp m extAlu op with
    | .error e => .error e
    | .ok d =>
      if rest.length + 1 < d.len then .error .truncated
      else .ok (d.ins.withOperands (rest.getD 0 0) (rest.getD 1 0), rest.drop (d.len - 1))

/-! ## Encoding -/

/-- The instruction without its operands. -/
def Instr.op : Instr → Op
  | .hlt     => .hlt
  | .ret     => .ret
  | .push _  => .push
  | .pop _   => .pop
  | .prn _   => .prn
  | .call _  => .call
  | .ldi _ _ => .ldi
  | .add _ _ => .add
  | .mul _ _ => .mul
  | .sub _ _ => .sub
  | .div _ _ => .div

/-- The operand bytes, in address order (30_encoding.md R61). -/
def Instr.operands : Instr → List Byte
  | .hlt     => []
  | .ret     => []
  | .push a  => [a]
  | .pop a   => [a]
  | .prn a   => [a]
  | .call a  => [a]
  | .ldi a b => [a, b]
  | .add a b => [a, b]
  | .mul a b => [a, b]
  | .sub a b => [a, b]
  | .div a b => [a, b]

/-- The bytes of an instruction: formats F0, F1 and F2 of 30_encoding.md R61. -/
def encode (m : OpcodeMap) (i : Instr) : List Byte := m.byte i.op :: i.operands

/-! ## The opcode table's numbering of bits -/

/-- Byte `k` of an instruction whose first `nbits` bits are `w` and whose other bits are 0; bit 0 is
the least significant bit of the first byte. -/
def tableByte (nbits w k : Nat) : Byte := BitVec.ofNat 8 ((w % 2 ^ nbits) / 2 ^ (8 * k))

/-- What the decoder reads from a word of spec/opcode_table.json. The table's bytes are the default
map's, and its rows SUB and DIV exist with EXT_ALU, so the decoder is asked in that configuration
(log entry 3). -/
def decodeTableWord (nbits w : Nat) : Option Instr :=
  match decode .default true (tableByte nbits w 0) (tableByte nbits w 1) (tableByte nbits w 2) with
  | .ok i    => some i
  | .error _ => none

end Sys2Proof
end

