-- ==== Sys2Proof/Machine/Params.lean ====
section
/-! DEFINITION. The default parameter values and the initial values of 00_scope.md R7. -/

namespace Sys2Proof.Machine

/-- SP_INDEX: the stack pointer is register 7 (10_state.md R22). -/
def sp : Reg := 7

/-- SP_INIT, the stack pointer's reset value (10_state.md R22). -/
def spInit : Byte := 0xF4

/-- START_PC's default (70_reset_and_hazards.md R192). -/
def startPcDefault : Nat := 0

/-- The base configuration: the default OPCODE_MAP, EXT_ALU false, no STEP_CAP, no CANCEL
(00_scope.md R7). -/
def baseParams : Params :=
  { opcodeMap := .default, extAlu := false, stepCap := none, cancel := .absent }

/-- The parameters of a valid construction: OPCODE_MAP meets the conditions of 30_encoding.md R67. -/
def paramsOk (p : Params) : Bool := p.opcodeMap.admissible p.extAlu

end Sys2Proof.Machine
end

