-- ==== Sys2Proof/Machine/State.lean ====
section
/-! DEFINITION. The machine's state (10_state.md R20 to R36, 20_memory.md R40), the reasons a step can
stop, and the state after reset. -/

namespace Sys2Proof.Machine

/-- The four fault kinds (60_exceptions.md R170). -/
inductive FaultKind where
  | illegalOpcode
  | outOfBounds
  | illegalRegister
  | divideByZero
  deriving DecidableEq, Repr

/-- The `detail` of a fault record: an out-of-range address, an offending operand byte, or none
(10_state.md R28). -/
inductive FaultDetail where
  | none
  | address (addr : Nat)
  | operand (byte : Byte)
  deriving DecidableEq, Repr

/-- The fault record (10_state.md R28). `opcode` is none when the opcode fetch itself failed. -/
structure FaultRecord where
  kind   : FaultKind
  pc     : Nat
  opcode : Option Byte
  detail : FaultDetail
  deriving DecidableEq, Repr

/-- Why the host's opt-in ended a run (10_state.md R27). -/
inductive StopReason where
  | stepCap
  | cancelled
  deriving DecidableEq, Repr

/-- The machine status (10_state.md R27). -/
inductive Status where
  | running
  | halted
  | faulted (f : FaultRecord)
  | stopped (r : StopReason)
  deriving DecidableEq, Repr

/-- What a unit raises while an instruction is in progress (00_scope.md R10, 60_exceptions.md R170);
the fault record adds `pc` and the opcode. -/
inductive FaultCause where
  | illegalOpcode
  | outOfBounds (addr : Nat)
  | illegalRegister (byte : Byte)
  | divideByZero
  deriving DecidableEq, Repr

/-- The memory array as its cells that differ from the reset value, addresses strictly rising
(`Memory.wf` in Machine/Ops.lean). -/
abbrev Memory := List Host.Cell

/-- The whole machine (10_state.md, first paragraph): the register file, the program counter, the
running flag and status (with the fault record in it), the instruction latches, the output log, the
step count, the memory array, and the parameters it was constructed with. -/
structure State where
  regs    : Vector Byte 8
  pc      : Nat
  running : Bool
  status  : Status
  ir      : Byte
  latchA  : Byte
  latchB  : Byte
  out     : List Byte
  steps   : Nat
  mem     : Memory
  params  : Params
  deriving DecidableEq, Repr

/-- Why `step` gives no next state. A fault of the hardware is not among these: it has a next state,
FAULTED (60_exceptions.md R171). -/
inductive Fault where
  /-- Raised by `step` in a machine that is HALTED, FAULTED or STOPPED: no iteration is enabled
  (40_execution_loop.md R80, 43_halt.md R141, 60_exceptions.md R179). Safe: nothing can be proved of
  a state after the end (log entry 5). -/
  | notRunning
  deriving DecidableEq, Repr

/-- What the model gives no meaning. -/
inductive Refusal where
  /-- An arm of `exec` whose instruction has no meaning yet. Raised by no arm. Safe. -/
  | notModelled (mnemonic : String)
  /-- Raised by `launch` for an image longer than 256 bytes: the core refuses it before reset
  (70_reset_and_hazards.md R192). Safe. -/
  | imageTooLong
  /-- Raised by `launch` for an OPCODE_MAP that breaks a condition of 30_encoding.md R67. Safe. -/
  | opcodeMapInadmissible
  deriving DecidableEq, Repr

/-- The fault record a state holds: none unless the status is FAULTED (10_state.md R28, R36). -/
def State.faultRecord? (s : State) : Option FaultRecord :=
  match s.status with
  | .faulted f => some f
  | .running | .halted | .stopped _ => none

/-- Step 1 and 2 of 70_reset_and_hazards.md R191: the state of 10_state.md R36 for the given
parameters. The dispatch table is the parameters themselves (log entry 2). -/
def State.construct (p : Params) : State :=
  { regs := (Vector.replicate 8 0).set sp spInit
    pc := startPcDefault
    running := true
    status := .running
    ir := 0
    latchA := 0
    latchB := 0
    out := []
    steps := 0
    mem := []
    params := p }

/-- The machine right after reset in the base configuration (10_state.md R36, 70 R190). No image is
loaded: memory is all 0 and `pc` is the default START_PC. -/
def State.reset : State := State.construct baseParams

end Sys2Proof.Machine
end

