-- ==== Sys2Proof/Machine/Flags.lean ====
section
/-! DEFINITION. The machine's one flag. There are no condition codes and the ALU has no flag output
(10_state.md R31, 42_alu.md R121); the only flag is `running`, and every exit from RUNNING clears it
(10_state.md R26, R27). -/

namespace Sys2Proof.Machine

/-- Leave RUNNING for the status `st`: `running` is cleared with it (10_state.md R26, R27). -/
def leaveRunning (s : State) (st : Status) : State := { s with running := false, status := st }

/-- HLT's flag effect (43_halt.md R140). -/
def haltRun (s : State) : State := leaveRunning s .halted

/-- The host's opt-in stop (40_execution_loop.md R103, R104). -/
def stopRun (s : State) (r : StopReason) : State := leaveRunning s (.stopped r)

end Sys2Proof.Machine
end

