-- ==== Sys2Proof/Machine/Ops.lean ====
section
/-! DEFINITION. The named operations over memory, registers, the program counter, the output port and
the latches, and the one operation that takes a fault (60_exceptions.md R171). There is no return
from a fault (R179), so no operation beside it. -/

namespace Sys2Proof.Machine

/-! ## The memory array (20_memory.md) -/

/-- What a cell that is not listed holds: the reset contents, 0 (20_memory.md R40; log entry 12). -/
def Memory.unlisted : Byte := 0

/-- The byte at an address. -/
def Memory.read : Memory → Nat → Byte
  | [], _ => Memory.unlisted
  | (k, v) :: rest, a => if k = a then v else Memory.read rest a

/-- The memory with one cell changed, in canonical form. -/
def Memory.write : Memory → Nat → Byte → Memory
  | [], a, v => if v = Memory.unlisted then [] else [(a, v)]
  | (k, w) :: rest, a, v =>
    if a < k then (if v = Memory.unlisted then (k, w) :: rest else (a, v) :: (k, w) :: rest)
    else if a = k then (if v = Memory.unlisted then rest else (a, v) :: rest)
    else (k, w) :: Memory.write rest a v

/-- Every address listed is at least `low`, the addresses rise strictly and lie in the array, and no
entry equals what an unlisted cell holds. -/
def Memory.wfFrom : Nat → Memory → Bool
  | _, [] => true
  | low, (k, v) :: rest =>
    decide (low ≤ k) && decide (k < Config.memSize) && decide (v ≠ Memory.unlisted) &&
      Memory.wfFrom (k + 1) rest

/-- The canonical form of a memory. -/
def Memory.wf (m : Memory) : Bool := Memory.wfFrom 0 m

/-- The bytes written one after another from address `a` on (70_reset_and_hazards.md R192). -/
def Memory.load : Memory → Nat → List Byte → Memory
  | m, _, [] => m
  | m, a, v :: rest => Memory.load (Memory.write m a v) (a + 1) rest

/-- `MemRead(addr, 1)` (20_memory.md R42). -/
def memRead (s : State) (addr : Nat) : Except FaultCause Byte :=
  if addr < Config.memSize then .ok (Memory.read s.mem addr) else .error (.outOfBounds addr)

/-- The state with another memory array. -/
def setMem (s : State) (m : Memory) : State := { s with mem := m }

/-- `MemWrite(addr, 1, v)` (20_memory.md R43). -/
def memWrite (s : State) (addr : Nat) (v : Byte) : Except FaultCause State :=
  if addr < Config.memSize then .ok (setMem s (Memory.write s.mem addr v))
  else .error (.outOfBounds addr)

/-! ## The register file (10_state.md R20 to R24) -/

/-- `trunc8` (00_scope.md R9), the reduction of every register write (10_state.md R21). -/
def trunc8 (v : Int) : Byte := BitVec.ofInt 8 v

/-- `rf_read` (10_state.md R24). -/
def readReg (s : State) (r : Reg) : Byte := s.regs[r]

/-- `rf_write` (10_state.md R24): the exact value is reduced modulo 256 (R21). The value is an integer,
since SUB and the stack pointer's decrement go below 0 before the reduction (42_alu.md R122). -/
def writeReg (s : State) (r : Reg) (v : Int) : State := { s with regs := s.regs.set r (trunc8 v) }

/-! ## Program counter, output port, latches, step count -/

/-- `pc <- target` (00_scope.md R10): exact, never reduced (40_execution_loop.md R99). -/
def setPc (s : State) (target : Nat) : State := { s with pc := target }

/-- `emit(v)` (41_load_and_print.md R113): one event, appended to the log. -/
def emit (s : State) (v : Byte) : State := { s with out := s.out ++ [v] }

/-- The fetch unit's outputs (10_state.md R29). -/
def latch (s : State) (ir a b : Byte) : State := { s with ir := ir, latchA := a, latchB := b }

/-- One more completed instruction (40_execution_loop.md R100). -/
def countStep (s : State) : State := { s with steps := s.steps + 1 }

/-! ## Stack steps (44_stack.md, 45_subroutine.md) -/

/-- Decrement SP, then store at the new top of stack; the value is read after the decrement
(44_stack.md R145, 45_subroutine.md R155). -/
def pushWith (s : State) (value : State → Byte) : Except FaultCause State :=
  let t := writeReg s sp ((readReg s sp).toNat - 1)
  memWrite t (readReg t sp).toNat (value t)

/-- The byte at the top of stack (44_stack.md R148, 45_subroutine.md R158). -/
def topOfStack (s : State) : Except FaultCause Byte := memRead s (readReg s sp).toNat

/-- Increment SP (44_stack.md R148, 45_subroutine.md R158). -/
def incSp (s : State) : State := writeReg s sp ((readReg s sp).toNat + 1)

/-! ## Faults (60_exceptions.md) -/

/-- The numeric fault codes (60_exceptions.md R170). -/
def FaultKind.code : FaultKind → Nat
  | .illegalOpcode   => 1
  | .outOfBounds     => 2
  | .illegalRegister => 3
  | .divideByZero    => 4

/-- The kind of a raised fault (60_exceptions.md R170). -/
def FaultCause.kind : FaultCause → FaultKind
  | .illegalOpcode     => .illegalOpcode
  | .outOfBounds _     => .outOfBounds
  | .illegalRegister _ => .illegalRegister
  | .divideByZero      => .divideByZero

/-- The detail a raised fault records (10_state.md R28, 60_exceptions.md R170). -/
def FaultCause.detail : FaultCause → FaultDetail
  | .illegalOpcode     => .none
  | .outOfBounds addr  => .address addr
  | .illegalRegister r => .operand r
  | .divideByZero      => .none

/-- The record of a fault raised by the instruction at `pc` (10_state.md R28). -/
def FaultCause.record (c : FaultCause) (pc : Nat) (opcode : Option Byte) : FaultRecord :=
  { kind := c.kind, pc := pc, opcode := opcode, detail := c.detail }

/-- Fault entry (60_exceptions.md R171): only the status, with the record in it, and `running`
change. -/
def takeFault (s : State) (f : FaultRecord) : State := leaveRunning s (.faulted f)

/-- The end of a handler that began in `s`: its result, or, if it raised, the fault with all its work
discarded (00_scope.md R10, 60_exceptions.md R171). The record's opcode is the latched IR. -/
def conclude (s : State) (r : Except FaultCause State) : Host.Outcome State Fault Refusal :=
  match r with
  | .ok t    => .next t
  | .error c => .next (takeFault s (c.record s.pc (some s.ir)))

end Sys2Proof.Machine
end

