-- ==== Sys2Proof/Machine/Operands.lean ====
section
/-! DEFINITION. The two operand forms (30_encoding.md R62): a register index and an immediate byte. -/

namespace Sys2Proof.Machine

/-- A register operand: the byte selects `R[r]`, and 8 or more raises IllegalRegister
(10_state.md R23, 40_execution_loop.md R91). -/
def regOperand (r : Byte) : Except FaultCause Reg :=
  if h : r.toNat < 8 then .ok ⟨r.toNat, h⟩ else .error (.illegalRegister r)

/-- An immediate operand: the byte itself, unsigned, not extended, scaled or shifted
(30_encoding.md R62). -/
def immOperand (b : Byte) : Int := b.toNat

end Sys2Proof.Machine
end

