-- ==== Sys2Proof/Machine/Alu.lean ====
section
/-! DEFINITION. The alu unit and ADD, MUL, SUB and DIV (42_alu.md). -/

namespace Sys2Proof.Machine

/-- `alu(aluop, x, y)` (42_alu.md R120, R122): exact arithmetic on unsigned bytes, before the 8-bit
reduction; DIV by 0 raises DivideByZero. -/
def alu (op : AluOp) (x y : Byte) : Except FaultCause Int :=
  match op with
  | .add => .ok ((x.toNat : Int) + y.toNat)
  | .sub => .ok ((x.toNat : Int) - y.toNat)
  | .mul => .ok ((x.toNat : Int) * y.toNat)
  | .div => if y = 0 then .error .divideByZero else .ok ((x.toNat / y.toNat : Nat) : Int)

/-- `alu_apply(aluop, a, b)` (42_alu.md R120) and the PC advance of format F2: the index checks on
`a` and then `b` (40_execution_loop.md R91), both reads, the operation, the write. -/
def aluApply (op : AluOp) (a b : Byte) (s : State) : Except FaultCause State := do
  let ra ← regOperand a
  let rb ← regOperand b
  let r ← alu op (readReg s ra) (readReg s rb)
  .ok (setPc (writeReg s ra r) (s.pc + 3))

/-- ADD (42_alu.md R125). -/
def execAdd (a b : Byte) (s : State) : Host.Outcome State Fault Refusal :=
  conclude s (aluApply .add a b s)

/-- MUL (42_alu.md R127). -/
def execMul (a b : Byte) (s : State) : Host.Outcome State Fault Refusal :=
  conclude s (aluApply .mul a b s)

/-- SUB (42_alu.md R129). That it exists only with EXT_ALU is the decoder's test
(40_execution_loop.md R85; log entry 9). -/
def execSub (a b : Byte) (s : State) : Host.Outcome State Fault Refusal :=
  conclude s (aluApply .sub a b s)

/-- DIV (42_alu.md R131). That it exists only with EXT_ALU is the decoder's test
(40_execution_loop.md R85; log entry 9). -/
def execDiv (a b : Byte) (s : State) : Host.Outcome State Fault Refusal :=
  conclude s (aluApply .div a b s)

end Sys2Proof.Machine
end

