-- ==== Sys2Proof/Machine/Halt.lean ====
section
/-! DEFINITION. HLT (43_halt.md). -/

namespace Sys2Proof.Machine

/-- HLT (43_halt.md R140). -/
def execHlt (s : State) : Host.Outcome State Fault Refusal :=
  conclude s (.ok (haltRun (setPc s (s.pc + 1))))

end Sys2Proof.Machine
end

