-- ==== Sys2Proof/Machine/LoadPrint.lean ====
section
/-! DEFINITION. LDI and PRN (41_load_and_print.md). -/

namespace Sys2Proof.Machine

/-- LDI (41_load_and_print.md R110). -/
def execLdi (a b : Byte) (s : State) : Host.Outcome State Fault Refusal :=
  conclude s (do
    let r ← regOperand a
    .ok (setPc (writeReg s r (immOperand b)) (s.pc + 3)))

/-- PRN (41_load_and_print.md R113). -/
def execPrn (a : Byte) (s : State) : Host.Outcome State Fault Refusal :=
  conclude s (do
    let r ← regOperand a
    .ok (setPc (emit s (readReg s r)) (s.pc + 2)))

end Sys2Proof.Machine
end

