-- ==== Sys2Proof/Machine/Stack.lean ====
section
/-! DEFINITION. PUSH and POP (44_stack.md). -/

namespace Sys2Proof.Machine

/-- PUSH (44_stack.md R145): `R[a]` is read after the decrement. -/
def execPush (a : Byte) (s : State) : Host.Outcome State Fault Refusal :=
  conclude s (do
    let r ← regOperand a
    let t ← pushWith s (fun u => readReg u r)
    .ok (setPc t (s.pc + 2)))

/-- POP (44_stack.md R148): the increment reads `R[7]` after the write to `R[a]`. -/
def execPop (a : Byte) (s : State) : Host.Outcome State Fault Refusal :=
  conclude s (do
    let r ← regOperand a
    let v ← topOfStack s
    .ok (setPc (incSp (writeReg s r v.toNat)) (s.pc + 2)))

end Sys2Proof.Machine
end

