-- ==== Sys2Proof/Machine/Subroutine.lean ====
section
/-! DEFINITION. CALL and RET (45_subroutine.md). -/

namespace Sys2Proof.Machine

/-- The return address byte CALL pushes. After a successful fetch `pc + 2` is at most 255 and is
stored exactly (45_subroutine.md R156); above that no step executes a CALL (log entry 8). -/
def returnByte (s : State) : Byte := trunc8 ((s.pc : Int) + 2)

/-- CALL (45_subroutine.md R155): `R[a]` is read after the push. -/
def execCall (a : Byte) (s : State) : Host.Outcome State Fault Refusal :=
  conclude s (do
    let r ← regOperand a
    let t ← pushWith s (fun _ => returnByte s)
    .ok (setPc t (readReg t r).toNat))

/-- RET (45_subroutine.md R158): exactly one increment (90_conflicts.md C1). -/
def execRet (s : State) : Host.Outcome State Fault Refusal :=
  conclude s (do
    let t ← topOfStack s
    .ok (setPc (incSp s) t.toNat))

end Sys2Proof.Machine
end

