-- ==== Sys2Proof/Machine/Fetch.lean ====
section
/-! DEFINITION. The fetch unit (40_execution_loop.md R81 to R83), and where an instruction's bytes lie. -/

namespace Sys2Proof.Machine

/-- A fetch that failed: the cause, and the opcode byte if that one was read (40_execution_loop.md
R81). -/
structure FetchFault where
  cause  : FaultCause
  opcode : Option Byte
  deriving DecidableEq, Repr

/-- One fetch read, whose failure is reported with the opcode read before it, if any. -/
def fetchRead (s : State) (opcode : Option Byte) (addr : Nat) : Except FetchFault Byte :=
  match memRead s addr with
  | .ok v    => .ok v
  | .error c => .error { cause := c, opcode := opcode }

/-- `(IR, A, B) <- fetch(pc)` (40_execution_loop.md R81): three reads, always, in address order; the
state with the latches set. -/
def fetch (s : State) : Except FetchFault State := do
  let ir ← fetchRead s none s.pc
  let a ← fetchRead s (some ir) (s.pc + 1)
  let b ← fetchRead s (some ir) (s.pc + 2)
  .ok (latch s ir a b)

/-- The bytes stored from `addr` on, for the addresses that exist (20_memory.md R40). -/
def placeBytes (m : Memory) (addr : Nat) : List Byte → Memory
  | [] => m
  | v :: rest =>
    placeBytes (if addr < Config.memSize then Memory.write m addr v else m) (addr + 1) rest

/-- The configuration in which a word of the opcode table is an instruction: the table's bytes are the
default map's, and a SUB or DIV word needs EXT_ALU (30_encoding.md R68; log entry 3). -/
def tableParams (p : Params) (op : Byte) : Params :=
  { p with
    opcodeMap := .default
    extAlu := p.extAlu || op == OpcodeMap.default.sub || op == OpcodeMap.default.div }

end Sys2Proof.Machine
end

