-- ==== Sys2Proof/Machine/Loop.lean ====
section
/-! DEFINITION. One iteration of the execution loop (40_execution_loop.md R80). -/

namespace Sys2Proof.Machine

/-- CANCEL is present and signalled at the start of this iteration (40_execution_loop.md R104;
log entry 4). -/
def cancelSignalled (s : State) : Bool :=
  match s.params.cancel with
  | .absent => false
  | .present samples => samples.getD s.steps false

/-- STEP_CAP is some N and `steps >= N` (40_execution_loop.md R103). -/
def capReached (s : State) : Bool :=
  match s.params.stepCap with
  | none => false
  | some n => decide (n ≤ s.steps)

/-- The end of an iteration that began in `s`: an instruction that executed without a fault counts
(40_execution_loop.md R100); one that faulted leaves the state it began in, with the fault entered
(R80, 60_exceptions.md R171). -/
def finishIteration (s : State) (o : Host.Outcome State Fault Refusal) :
    Host.Outcome State Fault Refusal :=
  match o with
  | .next t =>
    match t.status with
    | .faulted f => .next (takeFault s f)
    | .running | .halted | .stopped _ => .next (countStep t)
  | .fault r => .fault r
  | .refused r => .refused r

/-- Fetch, decode, dispatch, execute (40_execution_loop.md R80). -/
def fetchExecute (s : State) : Host.Outcome State Fault Refusal :=
  match fetch s with
  | .error e => .next (takeFault s (e.cause.record s.pc e.opcode))
  | .ok t =>
    match decode t.params.opcodeMap t.params.extAlu t.ir t.latchA t.latchB with
    | .error _ => .next (takeFault s (FaultCause.illegalOpcode.record s.pc (some t.ir)))
    | .ok i => finishIteration s (exec i t)

/-- One iteration of a RUNNING machine: CANCEL, then STEP_CAP, then the instruction
(40_execution_loop.md R80). -/
def iteration (s : State) : Host.Outcome State Fault Refusal :=
  if cancelSignalled s then .next (stopRun s .cancelled)
  else if capReached s then .next (stopRun s .stepCap)
  else fetchExecute s

end Sys2Proof.Machine
end

