-- ==== Sys2Proof/Machine/Step.lean ====
section
/-! DEFINITION. One step of the machine (40_execution_loop.md R80). -/

namespace Sys2Proof.Machine

/-- An iteration is enabled only while the status is RUNNING (40_execution_loop.md R80); an ended
machine has no step (43_halt.md R141, 60_exceptions.md R179; log entry 5). -/
def step (s : State) : Host.Outcome State Fault Refusal :=
  match s.status with
  | .running => iteration s
  | .halted | .faulted _ | .stopped _ => .fault .notRunning

/-- The state with a word of the opcode table stored at `pc`, in the configuration the table's bytes
belong to (log entry 3). -/
def State.withFetchWord (s : State) (nbits w : Nat) : State :=
  { s with
    mem := placeBytes s.mem s.pc [tableByte nbits w 0, tableByte nbits w 1, tableByte nbits w 2]
    params := tableParams s.params (tableByte nbits w 0) }

end Sys2Proof.Machine
end

