-- ==== Sys2Proof/Machine/Launch.lean ====
section
/-! DEFINITION. The host interface of 40_execution_loop.md R105: starting a run
(70_reset_and_hazards.md R190 to R192), repeating steps, and what is observed (40 R106). -/

namespace Sys2Proof.Machine

/-- The image hand-over (70_reset_and_hazards.md R192): the bytes from address 0 on. -/
def loadImage (s : State) (image : List Byte) : State :=
  setMem s (Memory.load s.mem 0 image)

/-- Steps 1 to 4 of 70_reset_and_hazards.md R191: construct, build the dispatch table, load the image,
set `pc`. An image longer than 256 bytes, or a map that breaks 30_encoding.md R67, is no valid
launch. -/
def launch (p : Params) (image : List Byte) (startPc : Nat) : Host.Outcome State Fault Refusal :=
  if Config.memSize < image.length then .refused .imageTooLong
  else if paramsOk p = false then .refused .opcodeMapInadmissible
  else .next (setPc (loadImage (State.construct p) image) startPc)

/-- At most `n` iterations, ending early when the status is no longer RUNNING: a prefix of the run of
40_execution_loop.md R105. A run that never ends has a longer prefix for every `n` (R102). -/
def iterate : Nat → State → State
  | 0, s => s
  | n + 1, s =>
    match step s with
    | .next t => iterate n t
    | .fault _ => s
    | .refused _ => s

/-- The observation of a run (40_execution_loop.md R106). -/
structure Observation where
  status : Status
  out    : List Byte
  regs   : Vector Byte 8
  pc     : Nat
  mem    : Memory
  deriving DecidableEq, Repr

/-- What the host reads from a state (40_execution_loop.md R105, R106). -/
def State.observe (s : State) : Observation :=
  { status := s.status, out := s.out, regs := s.regs, pc := s.pc, mem := s.mem }

/-- `run(IMAGE, START_PC, OPCODE_MAP, EXT_ALU, STEP_CAP, CANCEL, sink)` (40_execution_loop.md R105): what
the host observes after at most `n` iterations. The sink's events are the observation's `out`. -/
def run (n : Nat) (p : Params) (image : List Byte) (startPc : Nat) :
    Host.Outcome Observation Fault Refusal :=
  match launch p image startPc with
  | .next s => .next (iterate n s).observe
  | .fault r => .fault r
  | .refused r => .refused r

end Sys2Proof.Machine
end

