-- ==== Sys2Proof/Safety.lean ====
section
/-! DEFINITION. The terms claims are stated in: which states are ends, which are good, and the
invariants of the machine. -/

namespace Sys2Proof.Machine

/-- A run has ended (40_execution_loop.md R106). -/
abbrev State.ended (s : State) : Prop := s.status ≠ .running

/-- A successful end (40_execution_loop.md R106). -/
abbrev State.endedWell (s : State) : Prop := s.status = .halted

/-- The run has met no fault: what a claim of fault-free execution says of every state of a run
(40_execution_loop.md R106). -/
abbrev State.faultFree (s : State) : Prop := s.faultRecord? = none

/-- The iteration of this state executes an instruction or faults: the machine is RUNNING and the
host's opt-in does not stop it (40_execution_loop.md R80). -/
abbrev State.enabled (s : State) : Prop :=
  s.status = .running ∧ cancelSignalled s = false ∧ capReached s = false

/-- `running = (status == RUNNING)` (10_state.md R27). -/
abbrev State.runningAgrees (s : State) : Prop := s.running = true ↔ s.status = .running

/-- One state follows another by a step. -/
def StepsTo (s t : State) : Prop := step s = .next t

/-- Reached by some number of steps. -/
inductive Reaches : State → State → Prop where
  | refl (s : State) : Reaches s s
  | tail {s t u : State} : Reaches s t → StepsTo t u → Reaches s u

/-- Reached by a run of a valid launch whose START_PC lies in the range of `pc`
(70_reset_and_hazards.md R191). -/
def Reachable (t : State) : Prop :=
  ∃ (p : Params) (image : List Byte) (startPc : Nat) (s : State),
    startPc ≤ Config.memSize ∧ launch p image startPc = .next s ∧ Reaches s t

/-! ## What a RUNNING state is about to do, read off the spec's tables -/

/-- The state with the three bytes at `pc`, `pc + 1` and `pc + 2` latched (40_execution_loop.md
R81). -/
def State.latched (s : State) : State :=
  latch s (Memory.read s.mem s.pc) (Memory.read s.mem (s.pc + 1)) (Memory.read s.mem (s.pc + 2))

/-- The instruction at `pc`: none where the fetch or the decoder raises a fault
(40_execution_loop.md R81, R85). -/
def State.current (s : State) : Option Instr :=
  if s.pc + 2 < Config.memSize then
    match decode s.params.opcodeMap s.params.extAlu (Memory.read s.mem s.pc)
      (Memory.read s.mem (s.pc + 1)) (Memory.read s.mem (s.pc + 2)) with
    | .ok i => some i
    | .error _ => none
  else none

/-- Whether operand `a` is used as a register index: the table of 40_execution_loop.md R91. -/
def usesA : Op → Bool
  | .hlt | .ret => false
  | .push | .pop | .prn | .call | .ldi | .add | .mul | .sub | .div => true

/-- Whether operand `b` is used as a register index: the table of 40_execution_loop.md R91. -/
def usesB : Op → Bool
  | .hlt | .ret | .push | .pop | .prn | .call | .ldi => false
  | .add | .mul | .sub | .div => true

/-- The register a legal operand byte names. -/
def regOf (r : Byte) : Reg := Fin.ofNat 8 r.toNat

/-- The fault the iteration of an enabled state reports: the priority list of 60_exceptions.md R177,
line by line. -/
def firstFault (s : State) : Option FaultRecord :=
  let ir := Memory.read s.mem s.pc
  let a := Memory.read s.mem (s.pc + 1)
  let b := Memory.read s.mem (s.pc + 2)
  if 256 ≤ s.pc then some ⟨.outOfBounds, s.pc, none, .address s.pc⟩
  else if 256 ≤ s.pc + 1 then some ⟨.outOfBounds, s.pc, some ir, .address (s.pc + 1)⟩
  else if 256 ≤ s.pc + 2 then some ⟨.outOfBounds, s.pc, some ir, .address (s.pc + 2)⟩
  else if opClass ir = 3#2 then some ⟨.illegalOpcode, s.pc, some ir, .none⟩
  else
    match lookup s.params.opcodeMap s.params.extAlu ir with
    | none => some ⟨.illegalOpcode, s.pc, some ir, .none⟩
    | some o =>
      if usesA o = true ∧ 8 ≤ a.toNat then some ⟨.illegalRegister, s.pc, some ir, .operand a⟩
      else if usesB o = true ∧ 8 ≤ b.toNat then some ⟨.illegalRegister, s.pc, some ir, .operand b⟩
      else if o = .div ∧ readReg s (regOf b) = 0 then
        some ⟨.divideByZero, s.pc, some ir, .none⟩
      else none

/-- The state after the fault a handler raises in `s` (60_exceptions.md R171): the record holds `pc`,
the latched opcode and the detail, and only the status and `running` change. -/
def State.faultWith (s : State) (k : FaultKind) (d : FaultDetail) : State :=
  { s with
    running := false
    status := .faulted { kind := k, pc := s.pc, opcode := some s.ir, detail := d } }

/-- What every reachable state satisfies: the memory in canonical form, `running` agreeing with the
status (10_state.md R27), `pc` in its range (R25), an OPCODE_MAP that meets its conditions
(30_encoding.md R67). -/
structure State.Inv (s : State) : Prop where
  memory  : Memory.wf s.mem = true
  running : s.runningAgrees
  pc      : s.pc ≤ 256
  params  : paramsOk s.params = true

end Sys2Proof.Machine
end

