-- ==== Sys2Proof/Certificates/Slice0/Obligations.lean ====
section
/-! DEFINITION. The statements for the provers. Each docstring names the rule or the sentence of spec/
it formalises. -/

open Sys2Proof Sys2Proof.Machine

/-! ## Reset and launch -/

/-- 10_state.md R36: the value of every piece of state after construction and before the loader
writes the image, for every choice of the parameters; then START_PC and the image of a valid launch;
and `State.reset` is such a construction. -/
def Obligations.ConstructedStateHoldsResetValues : Prop :=
  (∀ p : Params,
    readReg (State.construct p) sp = 0xF4 ∧
    (∀ r : Reg, r ≠ sp → readReg (State.construct p) r = 0) ∧
    (State.construct p).pc = 0 ∧
    (State.construct p).running = true ∧
    (State.construct p).status = .running ∧
    (State.construct p).faultRecord? = none ∧
    (State.construct p).ir = 0 ∧ (State.construct p).latchA = 0 ∧ (State.construct p).latchB = 0 ∧
    (State.construct p).out = [] ∧
    (State.construct p).steps = 0 ∧
    (∀ addr, addr < 256 → Memory.read (State.construct p).mem addr = 0) ∧
    (State.construct p).params = p) ∧
  (∀ (p : Params) (image : List Byte) (startPc : Nat), image.length ≤ 256 → paramsOk p = true →
    ∃ s, launch p image startPc = .next s ∧ s.pc = startPc ∧
      ∀ addr, addr < 256 →
        Memory.read s.mem addr = if addr < image.length then image.getD addr 0 else 0) ∧
  State.reset = State.construct State.reset.params

/-- 70_reset_and_hazards.md R191 and R192, the image hand-over: a valid launch puts the image from
address 0 on, leaves 0 elsewhere, sets `pc` to START_PC and keeps the reset values of the rest; an
image longer than 256 bytes is refused. That an inadmissible OPCODE_MAP is refused is the model's
choice (log entry 10). -/
def Obligations.LaunchLoadsTheImage : Prop :=
  ∀ (p : Params) (image : List Byte) (startPc : Nat),
    (image.length ≤ 256 → paramsOk p = true →
      ∃ s, launch p image startPc = .next s ∧
        s.pc = startPc ∧
        (∀ addr, Memory.read s.mem addr = if addr < image.length then image.getD addr 0 else 0) ∧
        s.regs = (State.construct p).regs ∧ s.running = true ∧ s.status = .running ∧
        s.out = [] ∧ s.steps = 0 ∧ s.params = p) ∧
    (256 < image.length → launch p image startPc = .refused .imageTooLong) ∧
    (image.length ≤ 256 → paramsOk p = false →
      launch p image startPc = .refused .opcodeMapInadmissible)

/-! ## Registers and memory -/

/-- 10_state.md section 1: a register write stores its value modulo 256, a read returns the stored
byte, and no other register changes (one bank, no aliasing, none hard-wired). -/
def Obligations.RegisterWriteReducesModulo256 : Prop :=
  ∀ (s : State) (r : Reg) (v : Int),
    ((readReg (writeReg s r v) r).toNat : Int) = v % 256 ∧
    (∀ q : Reg, q ≠ r → readReg (writeReg s r v) q = readReg s q) ∧
    writeReg s r v = { s with regs := (writeReg s r v).regs }

/-- 20_memory.md R42 and R43: inside 0 to 255 a read returns the cell's byte and a write changes that
cell to `v` and nothing else; outside, OutOfBounds is raised, and the instruction that asked ends
with no effect in FAULTED. -/
def Obligations.MemoryInterfaceChecksTheRange : Prop :=
  ∀ (s : State) (addr : Nat) (v : Byte), Memory.wf s.mem = true →
    (addr < 256 →
      memRead s addr = .ok (Memory.read s.mem addr) ∧
      ∃ t, memWrite s addr v = .ok t ∧
        Memory.read t.mem addr = v ∧
        (∀ other, other ≠ addr → Memory.read t.mem other = Memory.read s.mem other) ∧
        t = { s with mem := t.mem }) ∧
    (256 ≤ addr →
      memRead s addr = .error (.outOfBounds addr) ∧
      memWrite s addr v = .error (.outOfBounds addr) ∧
      (∀ k : Byte → Except FaultCause State,
        conclude s (memRead s addr >>= k) = .next (s.faultWith .outOfBounds (.address addr))) ∧
      (∀ k : State → Except FaultCause State,
        conclude s (memWrite s addr v >>= k) = .next (s.faultWith .outOfBounds (.address addr))))

/-! ## Invariants -/

/-- Every step keeps the machine's invariant: canonical memory, `running` agreeing with the status
(10_state.md R27), `pc` in 0 to 256 (R25), an admissible OPCODE_MAP. -/
def Obligations.StepKeepsTheInvariant : Prop :=
  ∀ s t : State, s.Inv → step s = .next t → t.Inv

/-- Every valid launch with START_PC in the range of `pc` begins in the invariant, and so does
`State.reset`. -/
def Obligations.LaunchBeginsInTheInvariant : Prop :=
  State.reset.Inv ∧
  ∀ (p : Params) (image : List Byte) (startPc : Nat) (s : State),
    startPc ≤ 256 → launch p image startPc = .next s → s.Inv

/-- In every reachable state `running` is true exactly when the status is RUNNING, `pc` is in 0 to
256, no cell outside 0 to 255 holds anything, and a fault record, if there is one, names the address
in `pc`. The range of `pc` is the spec's own derivation ("The values it can reach are 0 to 256"). -/
def Obligations.ReachableStatesAreSound : Prop :=
  ∀ t : State, Reachable t →
    (t.running = true ↔ t.status = .running) ∧
    t.pc ≤ 256 ∧
    (∀ addr, 256 ≤ addr → Memory.read t.mem addr = 0) ∧
    (∀ f, t.faultRecord? = some f → f.pc = t.pc)

/-- 40_execution_loop.md R101: the loop ends only by HLT, by a fault, or by the opt-in cap or
cancellation, and each ends in its own status with `running` cleared; with both absent, HLT and
faults are the only exits. A machine without a step is not RUNNING. -/
def Obligations.LoopEndsInThreeWays : Prop :=
  (∀ s : State, (∀ t, step s ≠ .next t) → s.status ≠ .running) ∧
  (∀ s t : State, s.runningAgrees → step s = .next t →
    ((t.status = .running ∧ t.running = true) ∨
      (t.running = false ∧
        ((t.status = .halted ∧ s.current = some .hlt) ∨
          (∃ f, t.status = .faulted f) ∨
          (t.status = .stopped .cancelled ∧ cancelSignalled s = true) ∨
          (t.status = .stopped .stepCap ∧ capReached s = true)))) ∧
    (s.params.stepCap = none → s.params.cancel = .absent → ∀ r, t.status ≠ .stopped r))

/-- The dispatch table and the other parameters never change during a run
(40_execution_loop.md section 4, "does not change during a run"). -/
def Obligations.ParametersNeverChange : Prop :=
  ∀ s t : State, Reaches s t → t.params = s.params

/-! ## Encoding and decoding -/

/-- Decoding the bytes of an instruction of the table gives the instruction back, with every operand
at every value, under every admissible map, whatever bytes follow. -/
def Obligations.DecodeOfEncode : Prop :=
  ∀ (m : OpcodeMap) (extAlu : Bool) (i : Instr) (rest : List Byte),
    m.admissible extAlu = true → i.op ∈ Op.table extAlu →
    decodeBytes m extAlu (encode m i ++ rest) = .ok (i, rest)

/-- Bytes that decode are the encoding of what they decode to, followed by the rest. -/
def Obligations.EncodeOfDecode : Prop :=
  ∀ (m : OpcodeMap) (extAlu : Bool) (bytes rest : List Byte) (i : Instr),
    m.admissible extAlu = true → decodeBytes m extAlu bytes = .ok (i, rest) →
    i.op ∈ Op.table extAlu ∧ bytes = encode m i ++ rest

/-- 30_encoding.md R69: a byte is illegal exactly when its class is 3 or the table does not hold it,
and an enabled machine that fetches an illegal byte takes IllegalOpcode with the address and the
byte; the counts are those of the default map. -/
def Obligations.EveryOpcodeByteIsClassified : Prop :=
  (∀ (m : OpcodeMap) (extAlu : Bool) (op : Byte),
    (opClass op = 3#2 → decodeOp m extAlu op = .error (.unusedClass op)) ∧
    (opClass op ≠ 3#2 → (∀ o ∈ Op.table extAlu, m.byte o ≠ op) →
      decodeOp m extAlu op = .error (.notInTable op)) ∧
    (opClass op ≠ 3#2 → (∃ o ∈ Op.table extAlu, m.byte o = op) →
      ∃ d, decodeOp m extAlu op = .ok d ∧ m.byte d.ins = op)) ∧
  (∀ (s : State) (e : DecodeError), s.enabled → s.pc + 2 < 256 →
    decodeOp s.params.opcodeMap s.params.extAlu (Memory.read s.mem s.pc) = .error e →
    step s = .next
      { s with
        running := false
        status := .faulted
          { kind := .illegalOpcode, pc := s.pc, opcode := some (Memory.read s.mem s.pc),
            detail := .none } }) ∧
  ((List.range 256).countP fun n =>
    (decodeOp .default false (BitVec.ofNat 8 n)).toOption.isNone) = 247 ∧
  ((List.range 256).countP fun n =>
    (decodeOp .default true (BitVec.ofNat 8 n)).toOption.isNone) = 245

/-- 40_execution_loop.md R87: for every legal opcode byte under an admissible map the operand count is
the class, and the length is class + 1 and the advance of the instruction table: a handler other than
CALL's and RET's that completes advances `pc` by it, and theirs are 2 and 1. -/
def Obligations.ClassGivesCountAndLength : Prop :=
  ∀ (m : OpcodeMap) (extAlu : Bool) (op : Byte) (d : Decoded),
    m.admissible extAlu = true → decodeOp m extAlu op = .ok d →
    d.cls = opClass op ∧
    d.ins.operandCount = (opClass op).toNat ∧
    d.len = (opClass op).toNat + 1 ∧
    d.len = d.ins.length ∧
    (d.ins = .call → d.len = 2) ∧
    (d.ins = .ret → d.len = 1) ∧
    (∀ (a b : Byte) (s t : State), d.ins ≠ .call → d.ins ≠ .ret →
      exec (d.ins.withOperands a b) s = .next t → t.faultFree → t.pc = s.pc + d.len)

/-- 40_execution_loop.md R88: the ALU operation the decoder selects, and that under the default map it
is `IR[1:0]`. -/
def Obligations.DecoderSelectsTheAluOperation : Prop :=
  (∀ (m : OpcodeMap) (extAlu : Bool) (op : Byte) (d : Decoded), decodeOp m extAlu op = .ok d →
    (d.ins = .add → d.aluop = some .add) ∧
    (d.ins = .sub → d.aluop = some .sub) ∧
    (d.ins = .mul → d.aluop = some .mul) ∧
    (d.ins = .div → d.aluop = some .div)) ∧
  (∀ (extAlu : Bool) (op : Byte) (d : Decoded) (k : AluOp),
    decodeOp .default extAlu op = .ok d → d.aluop = some k →
    op.extractLsb' 0 2 =
      (match k with
        | .add => 0#2
        | .sub => 1#2
        | .mul => 2#2
        | .div => 3#2))

/-- 30_encoding.md section 1: an operand byte the format fetches but the instruction does not use has
no effect on what is decoded, so it is never checked as a register index. -/
def Obligations.UnusedOperandBytesAreIgnored : Prop :=
  ∀ (m : OpcodeMap) (extAlu : Bool) (op a b a' b' : Byte) (d : Decoded),
    decodeOp m extAlu op = .ok d →
    (d.ins.operandCount = 0 → decode m extAlu op a b = decode m extAlu op a' b') ∧
    (d.ins.operandCount = 1 → decode m extAlu op a b = decode m extAlu op a b')

/-- 30_encoding.md sections 1 and 2: bytes written out from the formats and the default map decode to
the instructions they stand for, with EXT_ALU true: that `decodeTableWord` decodes in this
configuration is the model's choice (log entry 3), and without EXT_ALU the SUB and DIV words are
illegal (R68). The default bytes are the spec's general-knowledge values
(93_implementation_defined.md K2, K3; log entry 1). -/
def Obligations.WordsOfTheTableDecode : Prop :=
  decodeTableWord 8 0b00000001 = some .hlt ∧
  decodeTableWord 8 0b00010001 = some .ret ∧
  decodeTableWord 16 0b00000111_01000101 = some (.push 7) ∧
  decodeTableWord 16 0b00000010_01000110 = some (.pop 2) ∧
  decodeTableWord 16 0b00000011_01000111 = some (.prn 3) ∧
  decodeTableWord 16 0b00000001_01010000 = some (.call 1) ∧
  decodeTableWord 24 0b11111111_00000011_10000010 = some (.ldi 3 255) ∧
  decodeTableWord 24 0b00000001_00000111_10100000 = some (.add 7 1) ∧
  decodeTableWord 24 0b00000001_00000000_10100010 = some (.mul 0 1) ∧
  decodeTableWord 24 0b00000011_00000010_10100001 = some (.sub 2 3) ∧
  decodeTableWord 24 0b00000010_00000000_10100011 = some (.div 0 2) ∧
  decodeTableWord 8 0b00000000 = none ∧
  decodeTableWord 8 0b11000011 = none

/-- 30_encoding.md section 2, the EXT_ALU parameter: without it, the default, the bytes a map keeps
for SUB and DIV are illegal, with it they are SUB and DIV; under the default map these are 0xA1 and 0xA3 (general
knowledge, K3; log entry 1). -/
def Obligations.ExtAluGatesSubAndDiv : Prop :=
  (∀ m : OpcodeMap, m.admissible true = true →
    decodeOp m false m.sub = .error (.notInTable m.sub) ∧
    decodeOp m false m.div = .error (.notInTable m.div) ∧
    (∀ a b, decode m true m.sub a b = .ok (.sub a b)) ∧
    (∀ a b, decode m true m.div a b = .ok (.div a b))) ∧
  State.reset.params.extAlu = false ∧
  OpcodeMap.default.admissible true = true ∧
  OpcodeMap.default.sub = 0xA1 ∧ OpcodeMap.default.div = 0xA3

/-! ## The iteration -/

/-- 40_execution_loop.md section 1: an enabled machine whose three bytes at `pc` decode to `i` runs
`exec i` in the state with those bytes latched; a result that is no fault counts one step, and a
fault leaves the state the iteration began in, with the fault entered. -/
def Obligations.StepRunsTheDecodedInstruction : Prop :=
  ∀ (s : State) (i : Instr), s.enabled → s.pc + 2 < 256 →
    decode s.params.opcodeMap s.params.extAlu (Memory.read s.mem s.pc)
      (Memory.read s.mem (s.pc + 1)) (Memory.read s.mem (s.pc + 2)) = .ok i →
    ∃ t, exec i { s with
          ir := Memory.read s.mem s.pc
          latchA := Memory.read s.mem (s.pc + 1)
          latchB := Memory.read s.mem (s.pc + 2) } = .next t ∧
      ((∀ f, t.status ≠ .faulted f) → step s = .next { t with steps := t.steps + 1 }) ∧
      (∀ f, t.status = .faulted f →
        step s = .next { s with running := false, status := .faulted f })

/-- 40_execution_loop.md R81: all three bytes are always read, in address order, before decoding; the
first address that is 256 or more is reported, with no opcode when it is `pc` itself and with IR
otherwise. When none is, the latches hold the three bytes. -/
def Obligations.FetchReadsThreeBytes : Prop :=
  ∀ s : State,
    (s.pc + 2 < 256 →
      fetch s = .ok { s with
        ir := Memory.read s.mem s.pc
        latchA := Memory.read s.mem (s.pc + 1)
        latchB := Memory.read s.mem (s.pc + 2) }) ∧
    (s.enabled → s.pc = 254 →
      step s = .next { s with
        running := false
        status := .faulted
          { kind := .outOfBounds, pc := 254, opcode := some (Memory.read s.mem 254),
            detail := .address 256 } }) ∧
    (s.enabled → s.pc = 255 →
      step s = .next { s with
        running := false
        status := .faulted
          { kind := .outOfBounds, pc := 255, opcode := some (Memory.read s.mem 255),
            detail := .address 256 } }) ∧
    (s.enabled → 256 ≤ s.pc →
      step s = .next { s with
        running := false
        status := .faulted
          { kind := .outOfBounds, pc := s.pc, opcode := none, detail := .address s.pc } })

/-- 60_exceptions.md R177: one iteration reports at most one fault, the first of the priority list
(`firstFault`), and none when the cap or the cancellation stops the run. -/
def Obligations.FirstFaultOfThePriorityList : Prop :=
  ∀ s t : State, step s = .next t →
    (s.enabled → t.faultRecord? = firstFault s) ∧
    (¬ s.enabled → t.faultRecord? = none)

/-- 60_exceptions.md R171: a step that ends in FAULTED changes nothing but the status, with the record
in it, and `running`; the record and `pc` name the faulting instruction. -/
def Obligations.FaultsArePrecise : Prop :=
  ∀ (s t : State) (f : FaultRecord), step s = .next t → t.status = .faulted f →
    t = { s with running := false, status := .faulted f } ∧ f.pc = s.pc

/-- 40_execution_loop.md R91: the operands used as register indices are checked, `a` first and then
`b`, before any write; an operand that is not used is never checked. -/
def Obligations.RegisterIndicesAreChecked : Prop :=
  ∀ (s : State) (a b : Byte),
    (8 ≤ a.toNat → ∀ i ∈ [Instr.ldi a b, .prn a, .push a, .pop a, .call a,
        .add a b, .mul a b, .sub a b, .div a b],
      exec i s = .next (s.faultWith .illegalRegister (.operand a))) ∧
    (a.toNat < 8 → 8 ≤ b.toNat → ∀ i ∈ [Instr.add a b, .mul a b, .sub a b, .div a b],
      exec i s = .next (s.faultWith .illegalRegister (.operand b))) ∧
    (s.faultFree →
      (∃ t, exec .hlt s = .next t ∧ t.faultFree) ∧
      (∃ t, exec .ret s = .next t ∧ t.faultFree) ∧
      (a.toNat < 8 → ∃ t, exec (.ldi a b) s = .next t ∧ t.faultFree))

/-- 10_state.md section 1, "A register operand is legal only when the operand byte `r` satisfies
`0 <= r <= 7`": an instruction raises IllegalRegister exactly when it is ill-formed. -/
def Obligations.IllFormedExactlyWhenIllegalRegister : Prop :=
  ∀ (i : Instr) (s t : State), s.faultFree → exec i s = .next t →
    (i.wf = false ↔ ∃ f, t.status = .faulted f ∧ f.kind = .illegalRegister)

/-- 60_exceptions.md R175: DIV with a divisor register that holds 0 raises DivideByZero, and without
EXT_ALU no step raises it. -/
def Obligations.DivideByZeroIsRaised : Prop :=
  (∀ (s : State) (a b : Byte), a.toNat < 8 → b.toNat < 8 → readReg s (regOf b) = 0 →
    exec (.div a b) s = .next (s.faultWith .divideByZero .none)) ∧
  (∀ (s t : State) (f : FaultRecord), s.params.extAlu = false → step s = .next t →
    t.status = .faulted f → f.kind ≠ .divideByZero)

/-- 60_exceptions.md section 1: the codes of the four faults and the detail each records. -/
def Obligations.FaultCodesAndDetails : Prop :=
  FaultKind.code .illegalOpcode = 1 ∧ FaultKind.code .outOfBounds = 2 ∧
  FaultKind.code .illegalRegister = 3 ∧ FaultKind.code .divideByZero = 4 ∧
  ∀ (pc addr : Nat) (op : Option Byte) (r : Byte),
    FaultCause.illegalOpcode.record pc op = ⟨.illegalOpcode, pc, op, .none⟩ ∧
    (FaultCause.outOfBounds addr).record pc op = ⟨.outOfBounds, pc, op, .address addr⟩ ∧
    (FaultCause.illegalRegister r).record pc op = ⟨.illegalRegister, pc, op, .operand r⟩ ∧
    FaultCause.divideByZero.record pc op = ⟨.divideByZero, pc, op, .none⟩

/-! ## The instructions -/

/-- 41_load_and_print.md R110: LDI writes the immediate byte into `R[a]` and advances by 3; an index of
8 or more faults with no write. -/
def Obligations.LdiResult : Prop :=
  ∀ (a b : Byte) (s : State),
    (∀ m : OpcodeMap, encode m (.ldi a b) = [m.ldi, a, b]) ∧
    (a.toNat < 8 →
      exec (.ldi a b) s = .next { s with regs := s.regs.set (regOf a) b, pc := s.pc + 3 }) ∧
    (8 ≤ a.toNat → exec (.ldi a b) s = .next (s.faultWith .illegalRegister (.operand a)))

/-- 41_load_and_print.md R113: PRN appends the value of `R[a]` to the output and advances by 2; an
index of 8 or more faults with no output. -/
def Obligations.PrnResult : Prop :=
  ∀ (a : Byte) (s : State),
    (∀ m : OpcodeMap, encode m (.prn a) = [m.prn, a]) ∧
    (a.toNat < 8 →
      exec (.prn a) s = .next { s with out := s.out ++ [readReg s (regOf a)], pc := s.pc + 2 }) ∧
    (8 ≤ a.toNat → exec (.prn a) s = .next (s.faultWith .illegalRegister (.operand a)))

/-- 42_alu.md R125 and R127: ADD and MUL store the sum and the product modulo 256 in `R[a]`, both
sources read before the write, and advance by 3; an illegal index faults, `a` before `b`. -/
def Obligations.AddAndMulResult : Prop :=
  ∀ (a b : Byte) (s : State),
    (∀ m : OpcodeMap,
      encode m (.add a b) = [m.add, a, b] ∧ encode m (.mul a b) = [m.mul, a, b]) ∧
    (a.toNat < 8 → b.toNat < 8 →
      exec (.add a b) s = .next { s with
        regs := s.regs.set (regOf a)
          (BitVec.ofNat 8 ((readReg s (regOf a)).toNat + (readReg s (regOf b)).toNat))
        pc := s.pc + 3 } ∧
      exec (.mul a b) s = .next { s with
        regs := s.regs.set (regOf a)
          (BitVec.ofNat 8 ((readReg s (regOf a)).toNat * (readReg s (regOf b)).toNat))
        pc := s.pc + 3 }) ∧
    (8 ≤ a.toNat →
      exec (.add a b) s = .next (s.faultWith .illegalRegister (.operand a)) ∧
      exec (.mul a b) s = .next (s.faultWith .illegalRegister (.operand a))) ∧
    (a.toNat < 8 → 8 ≤ b.toNat →
      exec (.add a b) s = .next (s.faultWith .illegalRegister (.operand b)) ∧
      exec (.mul a b) s = .next (s.faultWith .illegalRegister (.operand b)))

/-- 42_alu.md R129: SUB stores the difference, plus 256 when it is negative, in `R[a]` and advances by
3; an illegal index faults, `a` before `b`; without EXT_ALU its byte is illegal. -/
def Obligations.SubResult : Prop :=
  (∀ m : OpcodeMap, m.admissible true = true →
    decodeOp m false m.sub = .error (.notInTable m.sub)) ∧
  ∀ (a b : Byte) (s : State),
    (∀ m : OpcodeMap, encode m (.sub a b) = [m.sub, a, b]) ∧
    (a.toNat < 8 → b.toNat < 8 →
      exec (.sub a b) s = .next { s with
        regs := s.regs.set (regOf a)
          (BitVec.ofNat 8
            (if (readReg s (regOf b)).toNat ≤ (readReg s (regOf a)).toNat then
              (readReg s (regOf a)).toNat - (readReg s (regOf b)).toNat
            else (readReg s (regOf a)).toNat + 256 - (readReg s (regOf b)).toNat))
        pc := s.pc + 3 }) ∧
    (8 ≤ a.toNat → exec (.sub a b) s = .next (s.faultWith .illegalRegister (.operand a))) ∧
    (a.toNat < 8 → 8 ≤ b.toNat →
      exec (.sub a b) s = .next (s.faultWith .illegalRegister (.operand b)))

/-- 42_alu.md R131: DIV stores the floor of the quotient in `R[a]` and advances by 3; an illegal index
faults, `a` before `b`, and then a divisor of 0; without EXT_ALU its byte is illegal. -/
def Obligations.DivResult : Prop :=
  (∀ m : OpcodeMap, m.admissible true = true →
    decodeOp m false m.div = .error (.notInTable m.div)) ∧
  ∀ (a b : Byte) (s : State),
    (∀ m : OpcodeMap, encode m (.div a b) = [m.div, a, b]) ∧
    (a.toNat < 8 → b.toNat < 8 → readReg s (regOf b) ≠ 0 →
      exec (.div a b) s = .next { s with
        regs := s.regs.set (regOf a)
          (BitVec.ofNat 8 ((readReg s (regOf a)).toNat / (readReg s (regOf b)).toNat))
        pc := s.pc + 3 }) ∧
    (a.toNat < 8 → b.toNat < 8 → readReg s (regOf b) = 0 →
      exec (.div a b) s = .next (s.faultWith .divideByZero .none)) ∧
    (8 ≤ a.toNat → exec (.div a b) s = .next (s.faultWith .illegalRegister (.operand a))) ∧
    (a.toNat < 8 → 8 ≤ b.toNat →
      exec (.div a b) s = .next (s.faultWith .illegalRegister (.operand b)))

/-- 43_halt.md R140: HLT advances by 1, clears `running`, enters HALTED, and changes nothing else; at
254 and 255 the unconditional fetch faults before it executes. -/
def Obligations.HltResult : Prop :=
  (∀ m : OpcodeMap, encode m .hlt = [m.hlt]) ∧
  (∀ s : State,
    exec .hlt s = .next { s with pc := s.pc + 1, running := false, status := .halted }) ∧
  (∀ s t : State, s.enabled → s.pc = 254 ∨ s.pc = 255 → step s = .next t →
    ∃ f, t.status = .faulted f ∧ f.kind = .outOfBounds)

/-- 44_stack.md R145: PUSH decrements SP modulo 256 and stores `R[a]`, read after the decrement, at the
new top of stack, and advances by 2; an index of 8 or more faults before the decrement. -/
def Obligations.PushResult : Prop :=
  ∀ (a : Byte) (s : State),
    (∀ m : OpcodeMap, encode m (.push a) = [m.push, a]) ∧
    (a.toNat < 8 →
      exec (.push a) s = .next { s with
        regs := s.regs.set sp (readReg s sp - 1)
        mem := Memory.write s.mem (readReg s sp - 1).toNat
          (if regOf a = sp then readReg s sp - 1 else readReg s (regOf a))
        pc := s.pc + 2 }) ∧
    (8 ≤ a.toNat → exec (.push a) s = .next (s.faultWith .illegalRegister (.operand a)))

/-- 44_stack.md R148: POP loads the byte at the top of stack into `R[a]`, then increments `R[7]` modulo
256, reading it after the load, and advances by 2; an index of 8 or more faults before the read. -/
def Obligations.PopResult : Prop :=
  ∀ (a : Byte) (s : State),
    (∀ m : OpcodeMap, encode m (.pop a) = [m.pop, a]) ∧
    (a.toNat < 8 → regOf a ≠ sp →
      exec (.pop a) s = .next { s with
        regs := (s.regs.set (regOf a) (Memory.read s.mem (readReg s sp).toNat)).set sp
          (readReg s sp + 1)
        pc := s.pc + 2 }) ∧
    (a.toNat < 8 → regOf a = sp →
      exec (.pop a) s = .next { s with
        regs := s.regs.set sp (Memory.read s.mem (readReg s sp).toNat + 1)
        pc := s.pc + 2 }) ∧
    (8 ≤ a.toNat → exec (.pop a) s = .next (s.faultWith .illegalRegister (.operand a)))

/-- 45_subroutine.md R155: CALL decrements SP modulo 256, stores the address after itself at the new
top of stack (exactly `pc + 2`, which after a successful fetch is at most 255), and sets `pc` to
`R[a]` read after the push; an index of 8 or more faults before the push. -/
def Obligations.CallResult : Prop :=
  ∀ (a : Byte) (s : State),
    (∀ m : OpcodeMap, encode m (.call a) = [m.call, a]) ∧
    (a.toNat < 8 → s.pc + 2 < 256 →
      ∃ ret : Byte, ret.toNat = s.pc + 2 ∧
        exec (.call a) s = .next { s with
          regs := s.regs.set sp (readReg s sp - 1)
          mem := Memory.write s.mem (readReg s sp - 1).toNat ret
          pc := (if regOf a = sp then readReg s sp - 1 else readReg s (regOf a)).toNat }) ∧
    (8 ≤ a.toNat → exec (.call a) s = .next (s.faultWith .illegalRegister (.operand a)))

/-- 45_subroutine.md R158: RET pops the byte at the top of stack into `pc` with exactly one increment of
SP, modulo 256, and raises nothing. -/
def Obligations.RetResult : Prop :=
  (∀ m : OpcodeMap, encode m .ret = [m.ret]) ∧
  ∀ s : State,
    exec .ret s = .next { s with
      regs := s.regs.set sp (readReg s sp + 1)
      pc := (Memory.read s.mem (readReg s sp).toNat).toNat }

/-- 42_alu.md R122: the arithmetic laws, as the byte each operation stores. -/
def Obligations.ArithmeticLaws : Prop :=
  ∀ x y : Byte,
    (∃ r, alu .add x y = .ok r ∧ (trunc8 r).toNat = (x.toNat + y.toNat) % 256) ∧
    (∃ r, alu .sub x y = .ok r ∧
      (trunc8 r).toNat =
        if y.toNat ≤ x.toNat then x.toNat - y.toNat else x.toNat + 256 - y.toNat) ∧
    (∃ r, alu .mul x y = .ok r ∧ (trunc8 r).toNat = (x.toNat * y.toNat) % 256) ∧
    (y ≠ 0 → ∃ r, alu .div x y = .ok r ∧ (trunc8 r).toNat = x.toNat / y.toNat) ∧
    (y = 0 → alu .div x y = .error .divideByZero)

/-! ## Frames -/

/-- What LDI, ADD, MUL, SUB and DIV leave unchanged: every register but the destination, all of memory,
the output, the latches, the step count, the parameters; the status and `running` too, unless the
instruction takes a fault, which changes only those. -/
def Obligations.FrameOfRegisterInstructions : Prop :=
  ∀ (a b : Byte) (s t : State),
    ∀ i ∈ [Instr.ldi a b, .add a b, .mul a b, .sub a b, .div a b], exec i s = .next t →
      (∀ r : Reg, r ≠ regOf a → readReg t r = readReg s r) ∧
      (∀ addr, Memory.read t.mem addr = Memory.read s.mem addr) ∧
      t.out = s.out ∧ t.ir = s.ir ∧ t.latchA = s.latchA ∧ t.latchB = s.latchB ∧
      t.steps = s.steps ∧ t.params = s.params ∧
      ((t.status = s.status ∧ t.running = s.running) ∨
        ∃ f, t = { s with running := false, status := .faulted f })

/-- What PRN and HLT leave unchanged: every register, all of memory, the latches, the step count, the
parameters; PRN also the status and `running` unless it faults, HLT also the output. -/
def Obligations.FrameOfPrnAndHlt : Prop :=
  ∀ (a : Byte) (s t : State),
    (∀ i ∈ [Instr.prn a, .hlt], exec i s = .next t →
      (∀ r : Reg, readReg t r = readReg s r) ∧
      (∀ addr, Memory.read t.mem addr = Memory.read s.mem addr) ∧
      t.ir = s.ir ∧ t.latchA = s.latchA ∧ t.latchB = s.latchB ∧
      t.steps = s.steps ∧ t.params = s.params) ∧
    (exec (.prn a) s = .next t →
      (t.status = s.status ∧ t.running = s.running) ∨
        ∃ f, t = { s with running := false, status := .faulted f }) ∧
    (exec .hlt s = .next t → t.out = s.out)

/-- What PUSH and CALL leave unchanged: every register but SP, every cell but the one at the
decremented SP, the output, the latches, the step count, the parameters, and the status and
`running` unless the instruction takes a fault, which changes only those. -/
def Obligations.FrameOfPushAndCall : Prop :=
  ∀ (a : Byte) (s t : State), ∀ i ∈ [Instr.push a, .call a], exec i s = .next t →
    (∀ r : Reg, r ≠ sp → readReg t r = readReg s r) ∧
    (∀ addr : Nat,
      addr ≠ (readReg (writeReg s sp ((readReg s sp).toNat - 1)) sp).toNat →
      Memory.read t.mem addr = Memory.read s.mem addr) ∧
    t.out = s.out ∧ t.ir = s.ir ∧ t.latchA = s.latchA ∧ t.latchB = s.latchB ∧
    t.steps = s.steps ∧ t.params = s.params ∧
    ((t.status = s.status ∧ t.running = s.running) ∨
      ∃ f, t = { s with running := false, status := .faulted f })

/-- What POP and RET leave unchanged: every register but SP and, for POP, the destination; all of memory
(a pop does not clear the cell it reads: the spec's own derivation under POP); the output, the
latches, the step count, the parameters, and the status and `running` unless POP takes a fault. -/
def Obligations.FrameOfPopAndRet : Prop :=
  ∀ (a : Byte) (s t : State),
    (exec (.pop a) s = .next t →
      ∀ r : Reg, r ≠ sp → r ≠ regOf a → readReg t r = readReg s r) ∧
    (exec .ret s = .next t → ∀ r : Reg, r ≠ sp → readReg t r = readReg s r) ∧
    (∀ i ∈ [Instr.pop a, .ret], exec i s = .next t →
      (∀ addr, Memory.read t.mem addr = Memory.read s.mem addr) ∧
      t.out = s.out ∧ t.ir = s.ir ∧ t.latchA = s.latchA ∧ t.latchB = s.latchB ∧
      t.steps = s.steps ∧ t.params = s.params ∧
      ((t.status = s.status ∧ t.running = s.running) ∨
        ∃ f, t = { s with running := false, status := .faulted f }))

/-! ## Rules of the whole machine -/

/-- 20_memory.md section 1: the only memory writes of the machine are those of PUSH and CALL, each to
the one cell at the decremented SP. -/
def Obligations.OnlyPushAndCallWriteMemory : Prop :=
  ∀ (s t : State) (addr : Nat), step s = .next t →
    Memory.read t.mem addr ≠ Memory.read s.mem addr →
    ((∃ a, s.current = some (.push a)) ∨ (∃ a, s.current = some (.call a))) ∧
    addr = (readReg s sp - 1).toNat

/-- 10_state.md section 5: each PRN appends one byte at the end of the output, and nothing else writes
it. -/
def Obligations.OnlyPrnWritesTheOutput : Prop :=
  ∀ s t : State, step s = .next t →
    t.out = s.out ∨
      ∃ a, s.current = some (.prn a) ∧ a.toNat < 8 ∧ t.out = s.out ++ [readReg s (regOf a)]

/-- 10_state.md section 5: nothing in the core reads the output. Two machines that differ only in what
they have emitted take the same step and emit the same. -/
def Obligations.OutputIsNeverRead : Prop :=
  ∀ (s t : State) (o : List Byte), step s = .next t →
    ∃ d, t.out = s.out ++ d ∧ step { s with out := o } = .next { t with out := o ++ d }

/-- 10_state.md section 4: the latches are set before they are read. Two machines that differ only in
their latches take the same step, but for the latches themselves. -/
def Obligations.LatchesAreSetBeforeTheyAreRead : Prop :=
  ∀ (s t : State) (x y z : Byte), step s = .next t →
    ∃ x' y' z', step { s with ir := x, latchA := y, latchB := z } =
      .next { t with ir := x', latchA := y', latchB := z' }

/-- 40_execution_loop.md R97 and R98: the next `pc` of every instruction that completes, exact and
never reduced, and the unchanged `pc` of one that faults and of every iteration that faults, in the
fetch, the decoder or the handler. -/
def Obligations.ProgramCounterEffect : Prop :=
  (∀ (i : Instr) (s t : State), exec i s = .next t →
    (t.faultFree →
      t.pc =
        match i with
        | .ldi _ _ | .add _ _ | .mul _ _ | .sub _ _ | .div _ _ => s.pc + 3
        | .prn _ | .push _ | .pop _ => s.pc + 2
        | .hlt => s.pc + 1
        | .call a => (if regOf a = sp then readReg s sp - 1 else readReg s (regOf a)).toNat
        | .ret => (Memory.read s.mem (readReg s sp).toNat).toNat) ∧
    (s.faultFree → ¬ t.faultFree → t.pc = s.pc)) ∧
  (∀ (s t : State) (f : FaultRecord), step s = .next t → t.status = .faulted f → t.pc = s.pc)

/-- 40_execution_loop.md R99: an advance to 256 leaves `pc` at 256 and the next iteration faults with
OutOfBounds(256); only CALL and RET can lower `pc`. -/
def Obligations.ProgramCounterIsNeverReduced : Prop :=
  (∀ (s t : State) (i : Instr), s.pc = 253 → s.current = some i → i.op.length = 3 →
    s.enabled → step s = .next t → t.faultFree →
    t.pc = 256 ∧
    (t.enabled → step t = .next { t with
      running := false
      status := .faulted
        { kind := .outOfBounds, pc := 256, opcode := none, detail := .address 256 } })) ∧
  (∀ s t : State, step s = .next t → t.pc < s.pc →
    (∃ a, s.current = some (.call a)) ∨ s.current = some .ret)

/-- 40_execution_loop.md R100: `steps` counts every iteration that executes an instruction without a
fault, HLT's included, and no other. -/
def Obligations.StepsCountCompletedInstructions : Prop :=
  ∀ s t : State, step s = .next t →
    (t.status = .running ∨ t.status = .halted → t.steps = s.steps + 1) ∧
    (t.status ≠ .running → t.status ≠ .halted → t.steps = s.steps)

/-- 40_execution_loop.md R103: none by default; an iteration that begins with `steps >= N` stops the run
and does nothing else; at most N instructions complete. -/
def Obligations.StepCapLimitsTheRun : Prop :=
  State.reset.params.stepCap = none ∧
  (∀ (s : State) (n : Nat), s.status = .running → cancelSignalled s = false →
    s.params.stepCap = some n → n ≤ s.steps →
    step s = .next { s with running := false, status := .stopped .stepCap }) ∧
  (∀ (t : State) (n : Nat), Reachable t → t.params.stepCap = some n → t.steps ≤ n)

/-- 40_execution_loop.md section 6, CANCEL: absent by default; when it is signalled at the start of an
iteration the run stops before the cap is tested and before anything is fetched. That the sample of
an iteration is found by `steps` is the model's choice (log entry 4). -/
def Obligations.CancelStopsTheRunFirst : Prop :=
  State.reset.params.cancel = .absent ∧
  (∀ (s : State) (samples : List Bool), s.status = .running →
    s.params.cancel = .present samples → samples.getD s.steps false = true →
    step s = .next { s with running := false, status := .stopped .cancelled })

/-- 43_halt.md R141 and 60_exceptions.md R179: HALTED, FAULTED and STOPPED are terminal. Nothing follows
an ended state, so it survives unchanged. -/
def Obligations.EndedMachinesStayEnded : Prop :=
  ∀ s : State, s.status ≠ .running →
    (∀ t, step s ≠ .next t) ∧ (∀ t, Reaches s t → t = s)

/-- 40_execution_loop.md section 6: in state RUNNING an iteration always either completes or faults (the
spec's own derivation), so the machine has a step exactly while it is RUNNING. -/
def Obligations.RunningMachinesAlwaysStep : Prop :=
  ∀ s : State, (∃ t, step s = .next t) ↔ s.status = .running

/-- 20_memory.md section 1: a stack access is never out of range (the spec's own derivation), so a
handler raises only IllegalRegister and DivideByZero, and OutOfBounds comes only from a fetch at 254
or above. -/
def Obligations.OnlyTheFetchIsOutOfBounds : Prop :=
  (∀ (i : Instr) (s t : State) (f : FaultRecord), s.faultFree → exec i s = .next t →
    t.status = .faulted f → f.kind = .illegalRegister ∨ f.kind = .divideByZero) ∧
  (∀ (s t : State) (f : FaultRecord), step s = .next t → t.status = .faulted f →
    (f.kind = .outOfBounds ↔ 254 ≤ s.pc))

/-- 44_stack.md, under PUSH: PUSH then POP of the same register is an identity on the registers, for
every register, R7 included; `pc` advances by 4 and the pushed value stays in the cell (the spec's
own derivation). -/
def Obligations.PushThenPopIsIdentity : Prop :=
  ∀ (a : Byte) (s : State), Memory.wf s.mem = true → a.toNat < 8 →
    ∃ t u, exec (.push a) s = .next t ∧ exec (.pop a) t = .next u ∧
      (∀ r : Reg, readReg u r = readReg s r) ∧
      u.pc = s.pc + 4 ∧
      Memory.read u.mem (readReg s sp - 1).toNat =
        (if regOf a = sp then readReg s sp - 1 else readReg s (regOf a)) ∧
      (∀ addr : Nat, addr ≠ (readReg s sp - 1).toNat →
        Memory.read u.mem addr = Memory.read s.mem addr) ∧
      u.out = s.out ∧ u.status = s.status

/-- 45_subroutine.md, under RET: CALL and then RET at its target returns to the address after the CALL
with SP as it was (the spec's own derivation). -/
def Obligations.CallThenRetReturns : Prop :=
  ∀ (a : Byte) (s : State), Memory.wf s.mem = true → a.toNat < 8 → s.pc + 2 < 256 →
    ∃ t u, exec (.call a) s = .next t ∧ exec .ret t = .next u ∧
      t.pc = (if regOf a = sp then readReg s sp - 1 else readReg s (regOf a)).toNat ∧
      u.pc = s.pc + 2 ∧
      (∀ r : Reg, readReg u r = readReg s r)

/-- 41_load_and_print.md, under LDI: LDI followed by PRN of the same register emits the immediate
exactly, for every register and every immediate (the spec's own derivation). -/
def Obligations.LdiThenPrnRoundTrips : Prop :=
  ∀ (a v : Byte) (s : State), a.toNat < 8 →
    ∃ t u, exec (.ldi a v) s = .next t ∧ exec (.prn a) t = .next u ∧
      readReg t (regOf a) = v ∧ u.out = s.out ++ [v] ∧ u.pc = s.pc + 5
end

