-- ==== Sys2Proof/Laws/Decode.lean ====
section
/-! SUPPORT. What the lookup and the decoder can answer (30_encoding.md R69, 40_execution_loop.md
R85). -/

namespace Sys2Proof

/-- Everything a successful lookup says. -/
theorem lookup_some {m : OpcodeMap} {x : Bool} {op : Byte} {o : Op} (h : lookup m x op = some o) :
    o ∈ Op.table x ∧ m.byte o = op := by
  refine ⟨List.mem_of_find?_eq_some h, ?_⟩
  have := List.find?_some h
  simpa using this

/-- A lookup fails exactly on the bytes of no instruction in the table. -/
theorem lookup_none {m : OpcodeMap} {x : Bool} {op : Byte} :
    lookup m x op = none ↔ ∀ o ∈ Op.table x, m.byte o ≠ op := by
  simp [lookup, List.find?_eq_none]

/-- The three conditions of an admissible map, as propositions. -/
theorem admissible_iff {m : OpcodeMap} {x : Bool} :
    m.admissible x = true ↔
      ((Op.table x).map m.byte).Nodup ∧
        (∀ o ∈ Op.table x, (opClass (m.byte o)).toNat = o.operandCount) ∧
        ∀ o ∈ Op.table x, opClass (m.byte o) ≠ 3#2 := by
  simp [OpcodeMap.admissible, List.all_eq_true, and_assoc]

/-- Everything a decoder that accepts a byte has found. -/
theorem decodeOp_ok {m : OpcodeMap} {x : Bool} {op : Byte} {d : Decoded}
    (h : decodeOp m x op = .ok d) :
    opClass op ≠ 3#2 ∧ ∃ o, lookup m x op = some o ∧
      d = { ins := o, cls := opClass op, len := (opClass op).toNat + 1, aluop := o.aluOp? } := by
  rw [decodeOp] at h
  split at h
  · cases h
  · rename_i hc
    refine ⟨hc, ?_⟩
    cases hl : lookup m x op with
    | none => simp [hl] at h
    | some o => exact ⟨o, rfl, by simpa [hl] using h.symm⟩

/-- Everything a decoder that refuses a byte has found. -/
theorem decodeOp_error {m : OpcodeMap} {x : Bool} {op : Byte} {e : DecodeError}
    (h : decodeOp m x op = .error e) :
    (opClass op = 3#2 ∧ e = .unusedClass op) ∨
      (opClass op ≠ 3#2 ∧ lookup m x op = none ∧ e = .notInTable op) := by
  rw [decodeOp] at h
  split at h
  · rename_i hc
    exact .inl ⟨hc, by simpa using h.symm⟩
  · rename_i hc
    refine .inr ⟨hc, ?_⟩
    cases hl : lookup m x op with
    | none => exact ⟨rfl, by simpa [hl] using h.symm⟩
    | some o => simp [hl] at h

/-- Everything a decoder that accepts three bytes has found. -/
theorem decode_ok {m : OpcodeMap} {x : Bool} {ir a b : Byte} {i : Instr}
    (h : decode m x ir a b = .ok i) :
    opClass ir ≠ 3#2 ∧ ∃ o, lookup m x ir = some o ∧ i = o.withOperands a b := by
  rw [decode] at h
  cases hd : decodeOp m x ir with
  | error e => simp [hd] at h
  | ok d =>
    obtain ⟨hc, o, ho, rfl⟩ := decodeOp_ok hd
    exact ⟨hc, o, ho, by simpa [hd] using h.symm⟩

@[simp] theorem op_withOperands (o : Op) (a b : Byte) : (o.withOperands a b).op = o := by
  cases o <;> rfl

end Sys2Proof
end

