-- ==== Sys2Proof/Laws/Memory.lean ====
section
/-! SUPPORT. The laws of the memory array (20_memory.md R42, R43, R49, R52): what a write makes a read
answer, and that every operation keeps the canonical form. -/

namespace Sys2Proof.Machine

@[simp] theorem Memory.read_nil (a : Nat) : Memory.read [] a = 0 := rfl

theorem Memory.read_cons (k : Nat) (v : Byte) (rest : Memory) (a : Nat) :
    Memory.read ((k, v) :: rest) a = if k = a then v else Memory.read rest a := rfl

/-- Weakening the lower bound. -/
theorem Memory.wfFrom_mono {m : Memory} {low low' : Nat} (h : low' ≤ low)
    (hm : Memory.wfFrom low m = true) : Memory.wfFrom low' m = true := by
  cases m with
  | nil => rfl
  | cons c rest =>
    obtain ⟨k, v⟩ := c
    simp only [Memory.wfFrom, Bool.and_eq_true, decide_eq_true_eq] at hm ⊢
    exact ⟨⟨⟨by omega, hm.1.1.2⟩, hm.1.2⟩, hm.2⟩

/-- Below the lower bound nothing is listed. -/
theorem Memory.read_below {m : Memory} {low a : Nat} (hm : Memory.wfFrom low m = true)
    (h : a < low) : Memory.read m a = 0 := by
  induction m generalizing low with
  | nil => rfl
  | cons c rest ih =>
    obtain ⟨k, v⟩ := c
    simp only [Memory.wfFrom, Bool.and_eq_true, decide_eq_true_eq] at hm
    rw [Memory.read_cons, if_neg (by omega)]
    exact ih hm.2 (by omega)

theorem Memory.read_write_other (m : Memory) {a b : Nat} (v : Byte) (h : b ≠ a) :
    Memory.read (Memory.write m a v) b = Memory.read m b := by
  induction m with
  | nil =>
    simp only [Memory.write]
    split
    · rfl
    · rw [Memory.read_cons, if_neg (fun e => h e.symm)]
  | cons c rest ih =>
    obtain ⟨k, w⟩ := c
    simp only [Memory.write]
    split
    · split
      · rfl
      · rw [Memory.read_cons, if_neg (fun e => h e.symm)]
    · split
      · rename_i hk
        split
        · rw [Memory.read_cons, if_neg (fun e => h (by omega))]
        · rw [Memory.read_cons, Memory.read_cons, if_neg (fun e => h e.symm),
            if_neg (fun e => h (by omega))]
      · rw [Memory.read_cons, Memory.read_cons, ih]

theorem Memory.read_write_same {m : Memory} {low : Nat} (hm : Memory.wfFrom low m = true) (a : Nat)
    (v : Byte) : Memory.read (Memory.write m a v) a = v := by
  induction m generalizing low with
  | nil =>
    simp only [Memory.write]
    split
    · rename_i hv; rw [hv]; rfl
    · rw [Memory.read_cons, if_pos rfl]
  | cons c rest ih =>
    obtain ⟨k, w⟩ := c
    have hm' := hm
    simp only [Memory.wfFrom, Bool.and_eq_true, decide_eq_true_eq] at hm'
    simp only [Memory.write]
    split
    · split
      · rename_i hak hv
        rw [Memory.read_cons, if_neg (by omega), Memory.read_below hm'.2 (by omega), hv]
        rfl
      · rw [Memory.read_cons, if_pos rfl]
    · split
      · split
        · rename_i hk hv
          rw [Memory.read_below hm'.2 (by omega), hv]
          rfl
        · rw [Memory.read_cons, if_pos rfl]
      · rw [Memory.read_cons, if_neg (by omega)]
        exact ih hm'.2

theorem Memory.wfFrom_write {m : Memory} {low a : Nat} (v : Byte)
    (hm : Memory.wfFrom low m = true) (hlow : low ≤ a) (ha : a < Config.memSize) :
    Memory.wfFrom low (Memory.write m a v) = true := by
  induction m generalizing low with
  | nil =>
    simp only [Memory.write]
    split
    · rfl
    · rename_i hv
      simp [Memory.wfFrom, hlow, ha, hv]
  | cons c rest ih =>
    obtain ⟨k, w⟩ := c
    have hm' := hm
    simp only [Memory.wfFrom, Bool.and_eq_true, decide_eq_true_eq] at hm'
    obtain ⟨⟨⟨h1, h2⟩, h3⟩, h4⟩ := hm'
    simp only [Memory.write]
    split
    · split
      · exact hm
      · rename_i hak hv
        simp only [Memory.wfFrom, Bool.and_eq_true, decide_eq_true_eq]
        exact ⟨⟨⟨hlow, ha⟩, hv⟩, ⟨⟨⟨by omega, h2⟩, h3⟩, h4⟩⟩
    · split
      · rename_i hk
        split
        · exact Memory.wfFrom_mono (by omega) h4
        · rename_i hv
          simp only [Memory.wfFrom, Bool.and_eq_true, decide_eq_true_eq]
          exact ⟨⟨⟨hlow, ha⟩, hv⟩, Memory.wfFrom_mono (by omega) h4⟩
      · simp only [Memory.wfFrom, Bool.and_eq_true, decide_eq_true_eq]
        exact ⟨⟨⟨h1, h2⟩, h3⟩, ih h4 (by omega)⟩

/-- A write keeps the canonical form. -/
theorem Memory.wf_write {m : Memory} {a : Nat} (v : Byte) (hm : Memory.wf m = true)
    (ha : a < Config.memSize) : Memory.wf (Memory.write m a v) = true :=
  Memory.wfFrom_write v hm (Nat.zero_le a) ha

/-- Loading bytes that fit keeps the canonical form. -/
theorem Memory.wf_load {m : Memory} {a : Nat} (bytes : List Byte) (hm : Memory.wf m = true)
    (h : a + bytes.length ≤ Config.memSize) : Memory.wf (Memory.load m a bytes) = true := by
  induction bytes generalizing m a with
  | nil => exact hm
  | cons v rest ih =>
    simp only [List.length_cons] at h
    have ha : a < Config.memSize := by omega
    exact ih (a := a + 1) (Memory.wf_write v hm ha) (by omega)

/-- Below the start of a load every cell is as before. -/
theorem Memory.read_load_below (m : Memory) {a b : Nat} (bytes : List Byte) (h : b < a) :
    Memory.read (Memory.load m a bytes) b = Memory.read m b := by
  induction bytes generalizing m a with
  | nil => rfl
  | cons v rest ih =>
    rw [Memory.load, ih _ (by omega), Memory.read_write_other _ _ (by omega)]

/-- A loaded memory holds the bytes in order, and elsewhere what it held (70_reset_and_hazards.md
R192). -/
theorem Memory.read_load {m : Memory} {a : Nat} (bytes : List Byte) (hm : Memory.wf m = true)
    (h : a + bytes.length ≤ Config.memSize) (i : Nat) :
    Memory.read (Memory.load m a bytes) (a + i) =
      if i < bytes.length then bytes.getD i 0 else Memory.read m (a + i) := by
  induction bytes generalizing m a i with
  | nil => simp [Memory.load]
  | cons v rest ih =>
    simp only [List.length_cons] at h
    rw [Memory.load]
    cases i with
    | zero =>
      rw [Memory.read_load_below _ _ (by omega)]
      simp only [Nat.add_zero]
      rw [Memory.read_write_same hm]
      simp
    | succ j =>
      have ha : a < Config.memSize := by omega
      have := ih (a := a + 1) (Memory.wf_write v hm ha) (by omega) j
      rw [show a + (j + 1) = a + 1 + j by omega, this]
      simp only [List.length_cons, Nat.succ_lt_succ_iff,
        List.getD_cons_succ]
      split
      · rfl
      · rw [Memory.read_write_other _ _ (by omega)]

end Sys2Proof.Machine
end

