-- ==== Sys2Proof/Laws/State.lean ====
section
/-! SUPPORT. What each update of the state does to each field, one lemma per field per update, and the
values of the state after construction. -/

namespace Sys2Proof.Machine

/-! ### leaveRunning -/

@[simp] theorem leaveRunning_regs (s : State) (st : Status) : (leaveRunning s st).regs = s.regs := rfl
@[simp] theorem leaveRunning_pc (s : State) (st : Status) : (leaveRunning s st).pc = s.pc := rfl
@[simp] theorem leaveRunning_running (s : State) (st : Status) : (leaveRunning s st).running = false := rfl
@[simp] theorem leaveRunning_status (s : State) (st : Status) : (leaveRunning s st).status = st := rfl
@[simp] theorem leaveRunning_ir (s : State) (st : Status) : (leaveRunning s st).ir = s.ir := rfl
@[simp] theorem leaveRunning_latchA (s : State) (st : Status) : (leaveRunning s st).latchA = s.latchA := rfl
@[simp] theorem leaveRunning_latchB (s : State) (st : Status) : (leaveRunning s st).latchB = s.latchB := rfl
@[simp] theorem leaveRunning_out (s : State) (st : Status) : (leaveRunning s st).out = s.out := rfl
@[simp] theorem leaveRunning_steps (s : State) (st : Status) : (leaveRunning s st).steps = s.steps := rfl
@[simp] theorem leaveRunning_mem (s : State) (st : Status) : (leaveRunning s st).mem = s.mem := rfl
@[simp] theorem leaveRunning_params (s : State) (st : Status) : (leaveRunning s st).params = s.params := rfl

/-! ### takeFault -/

@[simp] theorem takeFault_regs (s : State) (f : FaultRecord) : (takeFault s f).regs = s.regs := rfl
@[simp] theorem takeFault_pc (s : State) (f : FaultRecord) : (takeFault s f).pc = s.pc := rfl
@[simp] theorem takeFault_running (s : State) (f : FaultRecord) : (takeFault s f).running = false := rfl
@[simp] theorem takeFault_status (s : State) (f : FaultRecord) : (takeFault s f).status = .faulted f := rfl
@[simp] theorem takeFault_ir (s : State) (f : FaultRecord) : (takeFault s f).ir = s.ir := rfl
@[simp] theorem takeFault_latchA (s : State) (f : FaultRecord) : (takeFault s f).latchA = s.latchA := rfl
@[simp] theorem takeFault_latchB (s : State) (f : FaultRecord) : (takeFault s f).latchB = s.latchB := rfl
@[simp] theorem takeFault_out (s : State) (f : FaultRecord) : (takeFault s f).out = s.out := rfl
@[simp] theorem takeFault_steps (s : State) (f : FaultRecord) : (takeFault s f).steps = s.steps := rfl
@[simp] theorem takeFault_mem (s : State) (f : FaultRecord) : (takeFault s f).mem = s.mem := rfl
@[simp] theorem takeFault_params (s : State) (f : FaultRecord) : (takeFault s f).params = s.params := rfl

/-! ### haltRun -/

@[simp] theorem haltRun_regs (s : State) : (haltRun s).regs = s.regs := rfl
@[simp] theorem haltRun_pc (s : State) : (haltRun s).pc = s.pc := rfl
@[simp] theorem haltRun_running (s : State) : (haltRun s).running = false := rfl
@[simp] theorem haltRun_status (s : State) : (haltRun s).status = .halted := rfl
@[simp] theorem haltRun_ir (s : State) : (haltRun s).ir = s.ir := rfl
@[simp] theorem haltRun_latchA (s : State) : (haltRun s).latchA = s.latchA := rfl
@[simp] theorem haltRun_latchB (s : State) : (haltRun s).latchB = s.latchB := rfl
@[simp] theorem haltRun_out (s : State) : (haltRun s).out = s.out := rfl
@[simp] theorem haltRun_steps (s : State) : (haltRun s).steps = s.steps := rfl
@[simp] theorem haltRun_mem (s : State) : (haltRun s).mem = s.mem := rfl
@[simp] theorem haltRun_params (s : State) : (haltRun s).params = s.params := rfl

/-! ### stopRun -/

@[simp] theorem stopRun_regs (s : State) (r : StopReason) : (stopRun s r).regs = s.regs := rfl
@[simp] theorem stopRun_pc (s : State) (r : StopReason) : (stopRun s r).pc = s.pc := rfl
@[simp] theorem stopRun_running (s : State) (r : StopReason) : (stopRun s r).running = false := rfl
@[simp] theorem stopRun_status (s : State) (r : StopReason) : (stopRun s r).status = .stopped r := rfl
@[simp] theorem stopRun_ir (s : State) (r : StopReason) : (stopRun s r).ir = s.ir := rfl
@[simp] theorem stopRun_latchA (s : State) (r : StopReason) : (stopRun s r).latchA = s.latchA := rfl
@[simp] theorem stopRun_latchB (s : State) (r : StopReason) : (stopRun s r).latchB = s.latchB := rfl
@[simp] theorem stopRun_out (s : State) (r : StopReason) : (stopRun s r).out = s.out := rfl
@[simp] theorem stopRun_steps (s : State) (r : StopReason) : (stopRun s r).steps = s.steps := rfl
@[simp] theorem stopRun_mem (s : State) (r : StopReason) : (stopRun s r).mem = s.mem := rfl
@[simp] theorem stopRun_params (s : State) (r : StopReason) : (stopRun s r).params = s.params := rfl

/-! ### writeReg -/

@[simp] theorem writeReg_regs (s : State) (r : Reg) (v : Int) : (writeReg s r v).regs = s.regs.set r (trunc8 v) := rfl
@[simp] theorem writeReg_pc (s : State) (r : Reg) (v : Int) : (writeReg s r v).pc = s.pc := rfl
@[simp] theorem writeReg_running (s : State) (r : Reg) (v : Int) : (writeReg s r v).running = s.running := rfl
@[simp] theorem writeReg_status (s : State) (r : Reg) (v : Int) : (writeReg s r v).status = s.status := rfl
@[simp] theorem writeReg_ir (s : State) (r : Reg) (v : Int) : (writeReg s r v).ir = s.ir := rfl
@[simp] theorem writeReg_latchA (s : State) (r : Reg) (v : Int) : (writeReg s r v).latchA = s.latchA := rfl
@[simp] theorem writeReg_latchB (s : State) (r : Reg) (v : Int) : (writeReg s r v).latchB = s.latchB := rfl
@[simp] theorem writeReg_out (s : State) (r : Reg) (v : Int) : (writeReg s r v).out = s.out := rfl
@[simp] theorem writeReg_steps (s : State) (r : Reg) (v : Int) : (writeReg s r v).steps = s.steps := rfl
@[simp] theorem writeReg_mem (s : State) (r : Reg) (v : Int) : (writeReg s r v).mem = s.mem := rfl
@[simp] theorem writeReg_params (s : State) (r : Reg) (v : Int) : (writeReg s r v).params = s.params := rfl

/-! ### setPc -/

@[simp] theorem setPc_regs (s : State) (target : Nat) : (setPc s target).regs = s.regs := rfl
@[simp] theorem setPc_pc (s : State) (target : Nat) : (setPc s target).pc = target := rfl
@[simp] theorem setPc_running (s : State) (target : Nat) : (setPc s target).running = s.running := rfl
@[simp] theorem setPc_status (s : State) (target : Nat) : (setPc s target).status = s.status := rfl
@[simp] theorem setPc_ir (s : State) (target : Nat) : (setPc s target).ir = s.ir := rfl
@[simp] theorem setPc_latchA (s : State) (target : Nat) : (setPc s target).latchA = s.latchA := rfl
@[simp] theorem setPc_latchB (s : State) (target : Nat) : (setPc s target).latchB = s.latchB := rfl
@[simp] theorem setPc_out (s : State) (target : Nat) : (setPc s target).out = s.out := rfl
@[simp] theorem setPc_steps (s : State) (target : Nat) : (setPc s target).steps = s.steps := rfl
@[simp] theorem setPc_mem (s : State) (target : Nat) : (setPc s target).mem = s.mem := rfl
@[simp] theorem setPc_params (s : State) (target : Nat) : (setPc s target).params = s.params := rfl

/-! ### emit -/

@[simp] theorem emit_regs (s : State) (v : Byte) : (emit s v).regs = s.regs := rfl
@[simp] theorem emit_pc (s : State) (v : Byte) : (emit s v).pc = s.pc := rfl
@[simp] theorem emit_running (s : State) (v : Byte) : (emit s v).running = s.running := rfl
@[simp] theorem emit_status (s : State) (v : Byte) : (emit s v).status = s.status := rfl
@[simp] theorem emit_ir (s : State) (v : Byte) : (emit s v).ir = s.ir := rfl
@[simp] theorem emit_latchA (s : State) (v : Byte) : (emit s v).latchA = s.latchA := rfl
@[simp] theorem emit_latchB (s : State) (v : Byte) : (emit s v).latchB = s.latchB := rfl
@[simp] theorem emit_out (s : State) (v : Byte) : (emit s v).out = s.out ++ [v] := rfl
@[simp] theorem emit_steps (s : State) (v : Byte) : (emit s v).steps = s.steps := rfl
@[simp] theorem emit_mem (s : State) (v : Byte) : (emit s v).mem = s.mem := rfl
@[simp] theorem emit_params (s : State) (v : Byte) : (emit s v).params = s.params := rfl

/-! ### latch -/

@[simp] theorem latch_regs (s : State) (ir a b : Byte) : (latch s ir a b).regs = s.regs := rfl
@[simp] theorem latch_pc (s : State) (ir a b : Byte) : (latch s ir a b).pc = s.pc := rfl
@[simp] theorem latch_running (s : State) (ir a b : Byte) : (latch s ir a b).running = s.running := rfl
@[simp] theorem latch_status (s : State) (ir a b : Byte) : (latch s ir a b).status = s.status := rfl
@[simp] theorem latch_ir (s : State) (ir a b : Byte) : (latch s ir a b).ir = ir := rfl
@[simp] theorem latch_latchA (s : State) (ir a b : Byte) : (latch s ir a b).latchA = a := rfl
@[simp] theorem latch_latchB (s : State) (ir a b : Byte) : (latch s ir a b).latchB = b := rfl
@[simp] theorem latch_out (s : State) (ir a b : Byte) : (latch s ir a b).out = s.out := rfl
@[simp] theorem latch_steps (s : State) (ir a b : Byte) : (latch s ir a b).steps = s.steps := rfl
@[simp] theorem latch_mem (s : State) (ir a b : Byte) : (latch s ir a b).mem = s.mem := rfl
@[simp] theorem latch_params (s : State) (ir a b : Byte) : (latch s ir a b).params = s.params := rfl

/-! ### countStep -/

@[simp] theorem countStep_regs (s : State) : (countStep s).regs = s.regs := rfl
@[simp] theorem countStep_pc (s : State) : (countStep s).pc = s.pc := rfl
@[simp] theorem countStep_running (s : State) : (countStep s).running = s.running := rfl
@[simp] theorem countStep_status (s : State) : (countStep s).status = s.status := rfl
@[simp] theorem countStep_ir (s : State) : (countStep s).ir = s.ir := rfl
@[simp] theorem countStep_latchA (s : State) : (countStep s).latchA = s.latchA := rfl
@[simp] theorem countStep_latchB (s : State) : (countStep s).latchB = s.latchB := rfl
@[simp] theorem countStep_out (s : State) : (countStep s).out = s.out := rfl
@[simp] theorem countStep_steps (s : State) : (countStep s).steps = s.steps + 1 := rfl
@[simp] theorem countStep_mem (s : State) : (countStep s).mem = s.mem := rfl
@[simp] theorem countStep_params (s : State) : (countStep s).params = s.params := rfl

/-! ### incSp -/

@[simp] theorem incSp_regs (s : State) : (incSp s).regs = s.regs.set sp (trunc8 ((readReg s sp).toNat + 1)) := rfl
@[simp] theorem incSp_pc (s : State) : (incSp s).pc = s.pc := rfl
@[simp] theorem incSp_running (s : State) : (incSp s).running = s.running := rfl
@[simp] theorem incSp_status (s : State) : (incSp s).status = s.status := rfl
@[simp] theorem incSp_ir (s : State) : (incSp s).ir = s.ir := rfl
@[simp] theorem incSp_latchA (s : State) : (incSp s).latchA = s.latchA := rfl
@[simp] theorem incSp_latchB (s : State) : (incSp s).latchB = s.latchB := rfl
@[simp] theorem incSp_out (s : State) : (incSp s).out = s.out := rfl
@[simp] theorem incSp_steps (s : State) : (incSp s).steps = s.steps := rfl
@[simp] theorem incSp_mem (s : State) : (incSp s).mem = s.mem := rfl
@[simp] theorem incSp_params (s : State) : (incSp s).params = s.params := rfl

/-! ### setMem -/

@[simp] theorem setMem_regs (s : State) (m : Memory) : (setMem s m).regs = s.regs := rfl
@[simp] theorem setMem_pc (s : State) (m : Memory) : (setMem s m).pc = s.pc := rfl
@[simp] theorem setMem_running (s : State) (m : Memory) : (setMem s m).running = s.running := rfl
@[simp] theorem setMem_status (s : State) (m : Memory) : (setMem s m).status = s.status := rfl
@[simp] theorem setMem_ir (s : State) (m : Memory) : (setMem s m).ir = s.ir := rfl
@[simp] theorem setMem_latchA (s : State) (m : Memory) : (setMem s m).latchA = s.latchA := rfl
@[simp] theorem setMem_latchB (s : State) (m : Memory) : (setMem s m).latchB = s.latchB := rfl
@[simp] theorem setMem_out (s : State) (m : Memory) : (setMem s m).out = s.out := rfl
@[simp] theorem setMem_steps (s : State) (m : Memory) : (setMem s m).steps = s.steps := rfl
@[simp] theorem setMem_mem (s : State) (m : Memory) : (setMem s m).mem = m := rfl
@[simp] theorem setMem_params (s : State) (m : Memory) : (setMem s m).params = s.params := rfl

/-! ### loadImage -/

@[simp] theorem loadImage_regs (s : State) (image : List Byte) : (loadImage s image).regs = s.regs := rfl
@[simp] theorem loadImage_pc (s : State) (image : List Byte) : (loadImage s image).pc = s.pc := rfl
@[simp] theorem loadImage_running (s : State) (image : List Byte) : (loadImage s image).running = s.running := rfl
@[simp] theorem loadImage_status (s : State) (image : List Byte) : (loadImage s image).status = s.status := rfl
@[simp] theorem loadImage_ir (s : State) (image : List Byte) : (loadImage s image).ir = s.ir := rfl
@[simp] theorem loadImage_latchA (s : State) (image : List Byte) : (loadImage s image).latchA = s.latchA := rfl
@[simp] theorem loadImage_latchB (s : State) (image : List Byte) : (loadImage s image).latchB = s.latchB := rfl
@[simp] theorem loadImage_out (s : State) (image : List Byte) : (loadImage s image).out = s.out := rfl
@[simp] theorem loadImage_steps (s : State) (image : List Byte) : (loadImage s image).steps = s.steps := rfl
@[simp] theorem loadImage_mem (s : State) (image : List Byte) : (loadImage s image).mem = Memory.load s.mem 0 image := rfl
@[simp] theorem loadImage_params (s : State) (image : List Byte) : (loadImage s image).params = s.params := rfl

/-! ### reading a register -/

@[simp] theorem readReg_leaveRunning (s : State) (st : Status) (q : Reg) : readReg (leaveRunning s st) q = readReg s q := rfl
@[simp] theorem readReg_takeFault (s : State) (f : FaultRecord) (q : Reg) : readReg (takeFault s f) q = readReg s q := rfl
@[simp] theorem readReg_haltRun (s : State) (q : Reg) : readReg (haltRun s) q = readReg s q := rfl
@[simp] theorem readReg_stopRun (s : State) (r : StopReason) (q : Reg) : readReg (stopRun s r) q = readReg s q := rfl
@[simp] theorem readReg_setPc (s : State) (target : Nat) (q : Reg) : readReg (setPc s target) q = readReg s q := rfl
@[simp] theorem readReg_emit (s : State) (v : Byte) (q : Reg) : readReg (emit s v) q = readReg s q := rfl
@[simp] theorem readReg_latch (s : State) (ir a b : Byte) (q : Reg) : readReg (latch s ir a b) q = readReg s q := rfl
@[simp] theorem readReg_countStep (s : State) (q : Reg) : readReg (countStep s) q = readReg s q := rfl
@[simp] theorem readReg_loadImage (s : State) (image : List Byte) (q : Reg) : readReg (loadImage s image) q = readReg s q := rfl

@[simp] theorem readReg_writeReg_same (s : State) (r : Reg) (v : Int) :
    readReg (writeReg s r v) r = trunc8 v := by
  simp [readReg, writeReg]

theorem readReg_writeReg_other (s : State) {r q : Reg} (v : Int) (h : q ≠ r) :
    readReg (writeReg s r v) q = readReg s q := by
  have : (r : Nat) ≠ q := fun e => h (Fin.ext e.symm)
  simp [readReg, writeReg, Vector.getElem_set_ne, this]

@[simp] theorem readReg_setMem (s : State) (m : Memory) (q : Reg) :
    readReg (setMem s m) q = readReg s q := rfl

/-! ### the reduction of a register write (10_state.md R21) -/

theorem trunc8_toNat (v : Int) : (trunc8 v).toNat = (v % 256).toNat := by
  simp [trunc8, BitVec.toNat_ofInt]

@[simp] theorem trunc8_byte (b : Byte) : trunc8 (b.toNat : Int) = b := by
  apply BitVec.eq_of_toNat_eq
  rw [trunc8_toNat]
  have := b.isLt
  omega

/-! ### construction (10_state.md R36) -/

@[simp] theorem construct_pc (p : Params) : (State.construct p).pc = 0 := rfl
@[simp] theorem construct_running (p : Params) : (State.construct p).running = true := rfl
@[simp] theorem construct_status (p : Params) : (State.construct p).status = .running := rfl
@[simp] theorem construct_ir (p : Params) : (State.construct p).ir = 0 := rfl
@[simp] theorem construct_latchA (p : Params) : (State.construct p).latchA = 0 := rfl
@[simp] theorem construct_latchB (p : Params) : (State.construct p).latchB = 0 := rfl
@[simp] theorem construct_out (p : Params) : (State.construct p).out = [] := rfl
@[simp] theorem construct_steps (p : Params) : (State.construct p).steps = 0 := rfl
@[simp] theorem construct_mem (p : Params) : (State.construct p).mem = [] := rfl
@[simp] theorem construct_params (p : Params) : (State.construct p).params = p := rfl

theorem construct_sp (p : Params) : readReg (State.construct p) sp = 0xF4 := rfl

theorem construct_general (p : Params) (r : Reg) (h : r ≠ sp) :
    readReg (State.construct p) r = 0 := by
  revert h
  revert r
  have : ∀ r : Reg, r ≠ sp → readReg (State.construct baseParams) r = 0 := by decide
  exact this

end Sys2Proof.Machine
end

