-- ==== Sys2Proof/Laws/Ops.lean ====
section
/-! SUPPORT. One lemma for everything each shared operation can do. -/

namespace Sys2Proof.Machine

/-! ## sequencing -/

@[simp] theorem raise_bind {ε α β : Type} (c : ε) (k : α → Except ε β) :
    ((Except.error c : Except ε α) >>= k) = Except.error c := rfl

@[simp] theorem value_bind {ε α β : Type} (v : α) (k : α → Except ε β) :
    ((Except.ok v : Except ε α) >>= k) = k v := rfl

/-- A handler with a result got it from both of its parts. -/
theorem bind_ok_inv {α β : Type} {x : Except FaultCause α} {k : α → Except FaultCause β} {v : β}
    (h : (x >>= k) = .ok v) : ∃ a, x = .ok a ∧ k a = .ok v := by
  cases x with
  | error c => simp at h
  | ok a => exact ⟨a, rfl, h⟩

/-- A handler that raises raised in its first part or in the rest. -/
theorem bind_error_inv {α β : Type} {x : Except FaultCause α} {k : α → Except FaultCause β}
    {c : FaultCause} (h : (x >>= k) = .error c) :
    x = .error c ∨ ∃ a, x = .ok a ∧ k a = .error c := by
  cases x with
  | error d => exact .inl (by simpa using h)
  | ok a => exact .inr ⟨a, rfl, h⟩

/-! ## operands -/

theorem regOf_eq {r : Byte} (h : r.toNat < 8) : regOf r = ⟨r.toNat, h⟩ := by
  apply Fin.ext
  simp [regOf, Fin.ofNat, Nat.mod_eq_of_lt h]

theorem regOperand_legal {r : Byte} (h : r.toNat < 8) : regOperand r = .ok (regOf r) := by
  rw [regOf_eq h, regOperand, dif_pos h]

theorem regOperand_illegal {r : Byte} (h : 8 ≤ r.toNat) :
    regOperand r = .error (.illegalRegister r) := by
  rw [regOperand, dif_neg (by omega)]

/-- Everything a register operand can do. -/
theorem regOperand_cases (r : Byte) :
    (r.toNat < 8 ∧ regOperand r = .ok (regOf r)) ∨
      (8 ≤ r.toNat ∧ regOperand r = .error (.illegalRegister r)) := by
  rcases Nat.lt_or_ge r.toNat 8 with h | h
  · exact .inl ⟨h, regOperand_legal h⟩
  · exact .inr ⟨h, regOperand_illegal h⟩

/-! ## memory and stack -/

theorem memRead_inside (s : State) {addr : Nat} (h : addr < 256) :
    memRead s addr = .ok (Memory.read s.mem addr) := if_pos h

theorem memRead_outside (s : State) {addr : Nat} (h : 256 ≤ addr) :
    memRead s addr = .error (.outOfBounds addr) := if_neg (Nat.not_lt.mpr h)

theorem memWrite_inside (s : State) {addr : Nat} (v : Byte) (h : addr < 256) :
    memWrite s addr v = .ok (setMem s (Memory.write s.mem addr v)) := if_pos h

theorem memWrite_outside (s : State) {addr : Nat} (v : Byte) (h : 256 ≤ addr) :
    memWrite s addr v = .error (.outOfBounds addr) := if_neg (Nat.not_lt.mpr h)

theorem topOfStack_eq (s : State) :
    topOfStack s = .ok (Memory.read s.mem (readReg s sp).toNat) :=
  memRead_inside s (readReg s sp).isLt

/-- Everything a push does: SP decremented, one cell written, nothing raised. -/
theorem pushWith_eq (s : State) (value : State → Byte) :
    pushWith s value =
      .ok (setMem (writeReg s sp ((readReg s sp).toNat - 1))
        (Memory.write s.mem (trunc8 ((readReg s sp).toNat - 1)).toNat
          (value (writeReg s sp ((readReg s sp).toNat - 1))))) := by
  simp only [pushWith, readReg_writeReg_same]
  exact memWrite_inside _ _ (trunc8 ((readReg s sp).toNat - 1)).isLt

/-! ## the end of a handler -/

@[simp] theorem conclude_ok (s t : State) : conclude s (.ok t) = .next t := rfl

@[simp] theorem conclude_error (s : State) (c : FaultCause) :
    conclude s (.error c) = .next (takeFault s (c.record s.pc (some s.ir))) := rfl

/-- Everything the end of a handler can do. -/
theorem conclude_next {s t : State} {r : Except FaultCause State} (h : conclude s r = .next t) :
    r = .ok t ∨ ∃ c, r = .error c ∧ t = takeFault s (c.record s.pc (some s.ir)) := by
  cases r with
  | ok u => simpa using h
  | error c => exact .inr ⟨c, rfl, by simpa using h.symm⟩

theorem conclude_answers (s : State) (r : Except FaultCause State) :
    ∃ t, conclude s r = .next t := by
  cases r <;> exact ⟨_, rfl⟩

/-! ## the alu unit -/

theorem alu_div_nonzero (x : Byte) {y : Byte} (h : y ≠ 0) :
    alu .div x y = .ok ((x.toNat / y.toNat : Nat) : Int) := if_neg h

theorem alu_div_zero (x : Byte) : alu .div x 0 = .error .divideByZero := rfl

/-- Everything the alu unit can raise. -/
theorem alu_error {op : AluOp} {x y : Byte} {c : FaultCause} (h : alu op x y = .error c) :
    op = .div ∧ y = 0 ∧ c = .divideByZero := by
  cases op with
  | add => simp [alu] at h
  | sub => simp [alu] at h
  | mul => simp [alu] at h
  | div =>
    by_cases hy : y = 0
    · rw [alu, if_pos hy] at h
      exact ⟨rfl, hy, by simpa using h.symm⟩
    · rw [alu_div_nonzero x hy] at h
      cases h

theorem aluApply_legal (op : AluOp) {a b : Byte} (s : State) (ha : a.toNat < 8)
    (hb : b.toNat < 8) :
    aluApply op a b s =
      (alu op (readReg s (regOf a)) (readReg s (regOf b)) >>= fun r =>
        .ok (setPc (writeReg s (regOf a) r) (s.pc + 3))) := by
  rw [aluApply, regOperand_legal ha, value_bind, regOperand_legal hb, value_bind]

/-- Everything an ALU instruction that completes has done. -/
theorem aluApply_ok {op : AluOp} {a b : Byte} {s t : State} (h : aluApply op a b s = .ok t) :
    a.toNat < 8 ∧ b.toNat < 8 ∧
      ∃ r, alu op (readReg s (regOf a)) (readReg s (regOf b)) = .ok r ∧
        t = setPc (writeReg s (regOf a) r) (s.pc + 3) := by
  rcases regOperand_cases a with ⟨ha, ea⟩ | ⟨_, ea⟩
  · rcases regOperand_cases b with ⟨hb, eb⟩ | ⟨_, eb⟩
    · rw [aluApply_legal op s ha hb] at h
      obtain ⟨r, hr, ht⟩ := bind_ok_inv h
      exact ⟨ha, hb, r, hr, by simpa using ht.symm⟩
    · simp [aluApply, ea, eb] at h
  · simp [aluApply, ea] at h

/-! ## the fetch unit -/

theorem fetchRead_inside (s : State) (o : Option Byte) {addr : Nat} (h : addr < 256) :
    fetchRead s o addr = .ok (Memory.read s.mem addr) := by
  simp only [fetchRead, memRead_inside s h]

theorem fetchRead_outside (s : State) (o : Option Byte) {addr : Nat} (h : 256 ≤ addr) :
    fetchRead s o addr = .error { cause := .outOfBounds addr, opcode := o } := by
  simp only [fetchRead, memRead_outside s h]

/-- A fetch with all three addresses inside memory. -/
theorem fetch_inside (s : State) (h : s.pc + 2 < 256) : fetch s = .ok s.latched := by
  rw [fetch, fetchRead_inside s _ (by omega), value_bind, fetchRead_inside s _ (by omega),
    value_bind, fetchRead_inside s _ h]
  rfl

theorem fetch_outside_pc (s : State) (h : 256 ≤ s.pc) :
    fetch s = .error { cause := .outOfBounds s.pc, opcode := none } := by
  rw [fetch, fetchRead_outside s _ h]
  rfl

theorem fetch_outside_a (s : State) (h : s.pc < 256) (h' : 256 ≤ s.pc + 1) :
    fetch s = .error
      { cause := .outOfBounds (s.pc + 1), opcode := some (Memory.read s.mem s.pc) } := by
  rw [fetch, fetchRead_inside s _ h, value_bind, fetchRead_outside s _ h']
  rfl

theorem fetch_outside_b (s : State) (h : s.pc + 1 < 256) (h' : 256 ≤ s.pc + 2) :
    fetch s = .error
      { cause := .outOfBounds (s.pc + 2), opcode := some (Memory.read s.mem s.pc) } := by
  rw [fetch, fetchRead_inside s _ (by omega), value_bind, fetchRead_inside s _ h, value_bind,
    fetchRead_outside s _ h']
  rfl

/-- Everything a fetch can do. -/
theorem fetch_cases (s : State) :
    (s.pc + 2 < 256 ∧ fetch s = .ok s.latched) ∨
      (254 ≤ s.pc ∧ ∃ e, fetch s = .error e) := by
  rcases Nat.lt_or_ge (s.pc + 2) 256 with h | h
  · exact .inl ⟨h, fetch_inside s h⟩
  · refine .inr ⟨by omega, ?_⟩
    rcases Nat.lt_or_ge s.pc 256 with h0 | h0
    · rcases Nat.lt_or_ge (s.pc + 1) 256 with h1 | h1
      · exact ⟨_, fetch_outside_b s h1 h⟩
      · exact ⟨_, fetch_outside_a s h0 h1⟩
    · exact ⟨_, fetch_outside_pc s h0⟩

/-! ## the latched state -/

@[simp] theorem latched_regs (s : State) : s.latched.regs = s.regs := rfl
@[simp] theorem latched_pc (s : State) : s.latched.pc = s.pc := rfl
@[simp] theorem latched_running (s : State) : s.latched.running = s.running := rfl
@[simp] theorem latched_status (s : State) : s.latched.status = s.status := rfl
@[simp] theorem latched_ir (s : State) : s.latched.ir = Memory.read s.mem s.pc := rfl
@[simp] theorem latched_latchA (s : State) :
    s.latched.latchA = Memory.read s.mem (s.pc + 1) := rfl
@[simp] theorem latched_latchB (s : State) :
    s.latched.latchB = Memory.read s.mem (s.pc + 2) := rfl
@[simp] theorem latched_out (s : State) : s.latched.out = s.out := rfl
@[simp] theorem latched_steps (s : State) : s.latched.steps = s.steps := rfl
@[simp] theorem latched_mem (s : State) : s.latched.mem = s.mem := rfl
@[simp] theorem latched_params (s : State) : s.latched.params = s.params := rfl
@[simp] theorem readReg_latched (s : State) (q : Reg) : readReg s.latched q = readReg s q := rfl

end Sys2Proof.Machine
end

