-- ==== Sys2Proof/Laws/Step.lean ====
section
/-! SUPPORT. What each arm of exec is, and everything an iteration and a step can do. -/

namespace Sys2Proof.Machine

/-! ## the arms of exec -/

theorem exec_hlt (s : State) : exec .hlt s = execHlt s := rfl
theorem exec_ret (s : State) : exec .ret s = execRet s := rfl
theorem exec_push (a : Byte) (s : State) : exec (.push a) s = execPush a s := rfl
theorem exec_pop (a : Byte) (s : State) : exec (.pop a) s = execPop a s := rfl
theorem exec_prn (a : Byte) (s : State) : exec (.prn a) s = execPrn a s := rfl
theorem exec_call (a : Byte) (s : State) : exec (.call a) s = execCall a s := rfl
theorem exec_ldi (a b : Byte) (s : State) : exec (.ldi a b) s = execLdi a b s := rfl
theorem exec_add (a b : Byte) (s : State) : exec (.add a b) s = execAdd a b s := rfl
theorem exec_mul (a b : Byte) (s : State) : exec (.mul a b) s = execMul a b s := rfl
theorem exec_sub (a b : Byte) (s : State) : exec (.sub a b) s = execSub a b s := rfl
theorem exec_div (a b : Byte) (s : State) : exec (.div a b) s = execDiv a b s := rfl

/-- Every arm is the end of a handler that began in the state it was given. -/
theorem exec_concludes (i : Instr) (s : State) : ∃ r, exec i s = conclude s r := by
  cases i with
  | hlt => exact ⟨_, by rw [exec_hlt, execHlt]⟩
  | ret => exact ⟨_, by rw [exec_ret, execRet]⟩
  | push a => exact ⟨_, by rw [exec_push, execPush]⟩
  | pop a => exact ⟨_, by rw [exec_pop, execPop]⟩
  | prn a => exact ⟨_, by rw [exec_prn, execPrn]⟩
  | call a => exact ⟨_, by rw [exec_call, execCall]⟩
  | ldi a b => exact ⟨_, by rw [exec_ldi, execLdi]⟩
  | add a b => exact ⟨_, by rw [exec_add, execAdd]⟩
  | mul a b => exact ⟨_, by rw [exec_mul, execMul]⟩
  | sub a b => exact ⟨_, by rw [exec_sub, execSub]⟩
  | div a b => exact ⟨_, by rw [exec_div, execDiv]⟩

/-- No arm stops the model. -/
theorem exec_answers (i : Instr) (s : State) : ∃ t, exec i s = .next t := by
  obtain ⟨r, hr⟩ := exec_concludes i s
  rw [hr]
  exact conclude_answers s r

/-! ## the instruction at pc -/

theorem current_eq_some {s : State} {i : Instr} :
    s.current = some i ↔
      s.pc + 2 < 256 ∧
        decode s.params.opcodeMap s.params.extAlu (Memory.read s.mem s.pc)
          (Memory.read s.mem (s.pc + 1)) (Memory.read s.mem (s.pc + 2)) = .ok i := by
  unfold State.current
  by_cases h : s.pc + 2 < 256
  · rw [if_pos h]
    cases decode s.params.opcodeMap s.params.extAlu (Memory.read s.mem s.pc)
      (Memory.read s.mem (s.pc + 1)) (Memory.read s.mem (s.pc + 2)) <;> simp [h]
  · rw [if_neg h]
    simp [h]

/-! ## the end of an iteration -/

/-- Everything the end of an iteration can do with a handler's next state. -/
theorem finishIteration_next {s t u : State} (h : finishIteration s (.next t) = .next u) :
    (∃ f, t.status = .faulted f ∧ u = takeFault s f) ∨
      ((∀ f, t.status ≠ .faulted f) ∧ u = countStep t) := by
  cases ht : t.status with
  | faulted f =>
    refine .inl ⟨f, rfl, ?_⟩
    simpa [finishIteration, ht] using h.symm
  | running => exact .inr ⟨by simp, by simpa [finishIteration, ht] using h.symm⟩
  | halted => exact .inr ⟨by simp, by simpa [finishIteration, ht] using h.symm⟩
  | stopped r => exact .inr ⟨by simp, by simpa [finishIteration, ht] using h.symm⟩

/-- An iteration whose fetch and decoding succeed. -/
theorem fetchExecute_current {s : State} {i : Instr} (h : s.current = some i) :
    fetchExecute s = finishIteration s (exec i s.latched) := by
  obtain ⟨hpc, hd⟩ := current_eq_some.mp h
  simp only [fetchExecute, fetch_inside s hpc, latched_params, latched_ir, latched_latchA,
    latched_latchB, hd]

/-- Everything fetch, decode, dispatch and execute can do. -/
theorem fetchExecute_next {s u : State} (h : fetchExecute s = .next u) :
    (s.current = none ∧ ∃ f, f.pc = s.pc ∧
        (f.kind = .outOfBounds ∨ f.kind = .illegalOpcode) ∧ u = takeFault s f) ∨
      ∃ i t, s.current = some i ∧ exec i s.latched = .next t ∧
        ((∃ f, t.status = .faulted f ∧ u = takeFault s f) ∨
          ((∀ f, t.status ≠ .faulted f) ∧ u = countStep t)) := by
  cases hc : s.current with
  | some i =>
    rw [fetchExecute_current hc] at h
    obtain ⟨t, ht⟩ := exec_answers i s.latched
    rw [ht] at h
    exact .inr ⟨i, t, rfl, ht, finishIteration_next h⟩
  | none =>
    refine .inl ⟨rfl, ?_⟩
    rcases Nat.lt_or_ge (s.pc + 2) 256 with hp | hp
    · cases hd : decode s.params.opcodeMap s.params.extAlu (Memory.read s.mem s.pc)
        (Memory.read s.mem (s.pc + 1)) (Memory.read s.mem (s.pc + 2)) with
      | ok i => rw [current_eq_some.mpr ⟨hp, hd⟩] at hc; cases hc
      | error e =>
        refine ⟨FaultCause.illegalOpcode.record s.pc (some (Memory.read s.mem s.pc)), rfl,
          .inr rfl, ?_⟩
        simpa [fetchExecute, fetch_inside s hp, hd] using h.symm
    · rcases Nat.lt_or_ge s.pc 256 with h0 | h0
      · rcases Nat.lt_or_ge (s.pc + 1) 256 with h1 | h1
        · refine ⟨_, ?_, ?_, by simpa [fetchExecute, fetch_outside_b s h1 hp] using h.symm⟩
          · rfl
          · exact .inl rfl
        · refine ⟨_, ?_, ?_, by simpa [fetchExecute, fetch_outside_a s h0 h1] using h.symm⟩
          · rfl
          · exact .inl rfl
      · refine ⟨_, ?_, ?_, by simpa [fetchExecute, fetch_outside_pc s h0] using h.symm⟩
        · rfl
        · exact .inl rfl

/-! ## the step -/

/-- A step of an enabled state. -/
theorem step_enabled {s : State} (h : s.enabled) : step s = fetchExecute s := by
  obtain ⟨hr, hc, hn⟩ := h
  simp [step, hr, iteration, hc, hn]

/-- A step in which the host's cancellation is signalled. -/
theorem step_cancelled {s : State} (hr : s.status = .running) (hc : cancelSignalled s = true) :
    step s = .next (stopRun s .cancelled) := by
  rw [step, hr]
  exact if_pos hc

/-- A step in which the cap is reached. -/
theorem step_capped {s : State} (hr : s.status = .running) (hc : cancelSignalled s = false)
    (hn : capReached s = true) : step s = .next (stopRun s .stepCap) := by
  rw [step, hr]
  show iteration s = _
  rw [iteration, if_neg (by simp [hc]), if_pos hn]

/-- Everything a step can do: the host's stop, or an iteration. -/
theorem step_next {s u : State} (h : step s = .next u) :
    s.status = .running ∧
      ((cancelSignalled s = true ∧ u = stopRun s .cancelled) ∨
        (cancelSignalled s = false ∧ capReached s = true ∧ u = stopRun s .stepCap) ∨
        (s.enabled ∧ fetchExecute s = .next u)) := by
  cases hr : s.status with
  | halted => simp [step, hr] at h
  | faulted f => simp [step, hr] at h
  | stopped r => simp [step, hr] at h
  | running =>
    refine ⟨rfl, ?_⟩
    simp only [step, hr, iteration] at h
    cases hc : cancelSignalled s with
    | true => exact .inl ⟨rfl, by simpa [hc] using h.symm⟩
    | false =>
      cases hn : capReached s with
      | true => exact .inr (.inl ⟨rfl, rfl, by simpa [hc, hn] using h.symm⟩)
      | false => exact .inr (.inr ⟨⟨hr, hc, hn⟩, by simpa [hc, hn] using h⟩)

end Sys2Proof.Machine
end

