-- ==== Sys2Proof/Laws/Exec.lean ====
section
/-! SUPPORT. What exec can do, said once for all instructions: every next state is a fault entry or one
of seven updates of the state, and what each leaves alone can be read off it. -/

namespace Sys2Proof.Machine

/-- The shapes of a next state that is no fault entry, by instruction: a destination register; the
output; HLT's end; a push; a pop. -/
inductive Effect (s : State) : Instr → State → Prop where
  | register {i : Instr} (r : Reg) (v : Int)
      (h : i.op = .ldi ∨ i.op = .add ∨ i.op = .mul ∨ i.op = .sub ∨ i.op = .div) :
      Effect s i (setPc (writeReg s r v) (s.pc + 3))
  | print {a : Byte} (h : a.toNat < 8) :
      Effect s (.prn a) (setPc (emit s (readReg s (regOf a))) (s.pc + 2))
  | halt : Effect s .hlt (haltRun (setPc s (s.pc + 1)))
  | push {a : Byte} (v : Byte) (h : a.toNat < 8) :
      Effect s (.push a)
        (setPc (setMem (writeReg s sp ((readReg s sp).toNat - 1))
          (Memory.write s.mem (trunc8 ((readReg s sp).toNat - 1)).toNat v)) (s.pc + 2))
  | pop {a : Byte} (h : a.toNat < 8) :
      Effect s (.pop a)
        (setPc (incSp (writeReg s (regOf a) (Memory.read s.mem (readReg s sp).toNat).toNat))
          (s.pc + 2))
  | call {a : Byte} (target : Byte) (h : a.toNat < 8) :
      Effect s (.call a)
        (setPc (setMem (writeReg s sp ((readReg s sp).toNat - 1))
          (Memory.write s.mem (trunc8 ((readReg s sp).toNat - 1)).toNat (returnByte s)))
          target.toNat)
  | ret : Effect s .ret (setPc (incSp s) (Memory.read s.mem (readReg s sp).toNat).toNat)

/-- The causes a handler can raise (20_memory.md R45, 60_exceptions.md R170). -/
def handlerCause (c : FaultCause) : Prop := (∃ r, c = .illegalRegister r) ∨ c = .divideByZero

/-- An ALU instruction raises only what a handler can raise. -/
theorem aluApply_error {op : AluOp} {a b : Byte} {s : State} {c : FaultCause}
    (h : aluApply op a b s = .error c) : handlerCause c := by
  rcases regOperand_cases a with ⟨ha, _⟩ | ⟨_, ea⟩
  · rcases regOperand_cases b with ⟨hb, _⟩ | ⟨_, eb⟩
    · rw [aluApply_legal op s ha hb] at h
      rcases bind_error_inv h with h | ⟨_, _, h⟩
      · exact .inr (alu_error h).2.2
      · cases h
    · rw [aluApply, regOperand_legal ha, value_bind, eb, raise_bind] at h
      exact .inl ⟨b, by simpa using h.symm⟩
  · rw [aluApply, ea, raise_bind] at h
    exact .inl ⟨a, by simpa using h.symm⟩

/-- The end of an ALU instruction. -/
theorem concludeAlu_next {i : Instr} {op : AluOp} {a b : Byte} {s t : State}
    (hi : i.op = .ldi ∨ i.op = .add ∨ i.op = .mul ∨ i.op = .sub ∨ i.op = .div)
    (h : conclude s (aluApply op a b s) = .next t) :
    Effect s i t ∨ ∃ c, handlerCause c ∧ t = takeFault s (c.record s.pc (some s.ir)) := by
  generalize hx : aluApply op a b s = x at h
  rcases conclude_next h with rfl | ⟨c, rfl, rfl⟩
  · obtain ⟨_, _, r, _, rfl⟩ := aluApply_ok hx
    exact .inl (.register (regOf a) r hi)
  · exact .inr ⟨c, aluApply_error hx, rfl⟩

/-- The end of a handler whose one check is the register operand `a`. -/
theorem concludeReg_next {i : Instr} {a : Byte} {s t u : State}
    {k : Reg → Except FaultCause State} (hk : a.toNat < 8 → k (regOf a) = .ok u ∧ Effect s i u)
    (h : conclude s (regOperand a >>= k) = .next t) :
    Effect s i t ∨ ∃ c, handlerCause c ∧ t = takeFault s (c.record s.pc (some s.ir)) := by
  rcases regOperand_cases a with ⟨ha, ea⟩ | ⟨_, ea⟩
  · obtain ⟨hu, he⟩ := hk ha
    rw [ea, value_bind, hu, conclude_ok] at h
    cases h
    exact .inl he
  · rw [ea, raise_bind, conclude_error] at h
    cases h
    exact .inr ⟨.illegalRegister a, .inl ⟨a, rfl⟩, rfl⟩

/-- Everything exec can do. -/
theorem exec_next {i : Instr} {s t : State} (h : exec i s = .next t) :
    Effect s i t ∨ ∃ c, handlerCause c ∧ t = takeFault s (c.record s.pc (some s.ir)) := by
  cases i with
  | hlt =>
    rw [exec_hlt, execHlt, conclude_ok] at h
    cases h
    exact .inl .halt
  | ret =>
    rw [exec_ret, execRet, topOfStack_eq, value_bind, conclude_ok] at h
    cases h
    exact .inl .ret
  | push a =>
    exact concludeReg_next (fun ha => ⟨by rw [pushWith_eq, value_bind], .push _ ha⟩) h
  | pop a =>
    exact concludeReg_next (fun ha => ⟨by rw [topOfStack_eq, value_bind], .pop ha⟩) h
  | prn a => exact concludeReg_next (fun ha => ⟨rfl, .print ha⟩) h
  | call a =>
    exact concludeReg_next (fun ha => ⟨by rw [pushWith_eq, value_bind], .call _ ha⟩) h
  | ldi a b => exact concludeReg_next (fun _ => ⟨rfl, .register _ _ (.inl rfl)⟩) h
  | add a b => exact concludeAlu_next (.inr (.inl rfl)) h
  | mul a b => exact concludeAlu_next (.inr (.inr (.inl rfl))) h
  | sub a b => exact concludeAlu_next (.inr (.inr (.inr (.inl rfl)))) h
  | div a b => exact concludeAlu_next (.inr (.inr (.inr (.inr rfl)))) h

end Sys2Proof.Machine
end

