-- ==== Sys2Proof/Laws/Launch.lean ====
section
/-! SUPPORT. Launches, runs and the induction over them. -/

namespace Sys2Proof.Machine

/-- Everything a launch that begins a run has checked, and where it begins. -/
theorem launch_next {p : Params} {image : List Byte} {startPc : Nat} {s : State}
    (h : launch p image startPc = .next s) :
    image.length ≤ 256 ∧ paramsOk p = true ∧
      s = setPc (loadImage (State.construct p) image) startPc := by
  unfold launch at h
  split at h
  · cases h
  · rename_i hl
    split at h
    · cases h
    · rename_i hp
      exact ⟨Nat.le_of_not_lt hl, by simpa using hp, by simpa using h.symm⟩

/-- What holds of a state and is kept by every step holds of every state reached from it. -/
theorem reaches_keeps {P : State → Prop} (keeps : ∀ a b, P a → step a = .next b → P b)
    {s t : State} (h : Reaches s t) (hs : P s) : P t := by
  induction h with
  | refl => exact hs
  | tail _ hu ih => exact keeps _ _ ih hu

/-- Reaching is transitive from the left. -/
theorem Reaches.head {s t u : State} (h : StepsTo s t) (hr : Reaches t u) : Reaches s u := by
  induction hr with
  | refl => exact .tail (.refl s) h
  | tail _ hu ih => exact .tail ih hu

/-- What `iterate` answers is a state of the run. -/
theorem iterate_reaches (n : Nat) (s : State) : Reaches s (iterate n s) := by
  induction n generalizing s with
  | zero => exact .refl s
  | succ n ih =>
    rw [iterate]
    split
    · rename_i t h
      exact Reaches.head h (ih t)
    · exact .refl s
    · exact .refl s

/-- A cell of an address outside the array holds nothing in a canonical memory. -/
theorem Memory.read_outside {m : Memory} {low a : Nat} (h : Memory.wfFrom low m = true)
    (ha : 256 ≤ a) : Memory.read m a = 0 := by
  induction m generalizing low with
  | nil => rfl
  | cons c rest ih =>
    obtain ⟨k, v⟩ := c
    simp only [Memory.wfFrom, Bool.and_eq_true, decide_eq_true_eq, Config.memSize] at h
    rw [Memory.read_cons, if_neg (by omega)]
    exact ih h.2

end Sys2Proof.Machine
end

