-- ==== Sys2Proof/Laws/PerInstr.lean ====
section
/-! SUPPORT. Statements about every instruction as syntax, one lemma per constructor. -/

namespace Sys2Proof.Laws

/-- An encoding has the length of the instruction table, under every map (30_encoding.md R61, R66). -/
def EncodedLength.Statement (i : Instr) : Prop :=
  ∀ m : OpcodeMap, (encode m i).length = i.op.length

theorem EncodedLength.hlt : EncodedLength.Statement .hlt := fun _ => rfl
theorem EncodedLength.ret : EncodedLength.Statement .ret := fun _ => rfl
theorem EncodedLength.push (a : Byte) : EncodedLength.Statement (.push a) := fun _ => rfl
theorem EncodedLength.pop (a : Byte) : EncodedLength.Statement (.pop a) := fun _ => rfl
theorem EncodedLength.prn (a : Byte) : EncodedLength.Statement (.prn a) := fun _ => rfl
theorem EncodedLength.call (a : Byte) : EncodedLength.Statement (.call a) := fun _ => rfl
theorem EncodedLength.ldi (a b : Byte) : EncodedLength.Statement (.ldi a b) := fun _ => rfl
theorem EncodedLength.add (a b : Byte) : EncodedLength.Statement (.add a b) := fun _ => rfl
theorem EncodedLength.mul (a b : Byte) : EncodedLength.Statement (.mul a b) := fun _ => rfl
theorem EncodedLength.sub (a b : Byte) : EncodedLength.Statement (.sub a b) := fun _ => rfl
theorem EncodedLength.div (a b : Byte) : EncodedLength.Statement (.div a b) := fun _ => rfl

/-- The decoder's operand step rebuilds an instruction from its name and its operand bytes, whatever
the bytes it does not use hold (30_encoding.md R63, R64). -/
def OperandsRebuild.Statement (i : Instr) : Prop :=
  ∀ rest : List Byte,
    i.op.withOperands ((i.operands ++ rest).getD 0 0) ((i.operands ++ rest).getD 1 0) = i

theorem OperandsRebuild.hlt : OperandsRebuild.Statement .hlt := fun _ => rfl
theorem OperandsRebuild.ret : OperandsRebuild.Statement .ret := fun _ => rfl
theorem OperandsRebuild.push (a : Byte) : OperandsRebuild.Statement (.push a) := fun _ => rfl
theorem OperandsRebuild.pop (a : Byte) : OperandsRebuild.Statement (.pop a) := fun _ => rfl
theorem OperandsRebuild.prn (a : Byte) : OperandsRebuild.Statement (.prn a) := fun _ => rfl
theorem OperandsRebuild.call (a : Byte) : OperandsRebuild.Statement (.call a) := fun _ => rfl
theorem OperandsRebuild.ldi (a b : Byte) : OperandsRebuild.Statement (.ldi a b) := fun _ => rfl
theorem OperandsRebuild.add (a b : Byte) : OperandsRebuild.Statement (.add a b) := fun _ => rfl
theorem OperandsRebuild.mul (a b : Byte) : OperandsRebuild.Statement (.mul a b) := fun _ => rfl
theorem OperandsRebuild.sub (a b : Byte) : OperandsRebuild.Statement (.sub a b) := fun _ => rfl
theorem OperandsRebuild.div (a b : Byte) : OperandsRebuild.Statement (.div a b) := fun _ => rfl

end Sys2Proof.Laws
end

