-- ==== Sys2Proof/Tests/Slice0.lean ====
section
/-! SUPPORT. The model's own tests, each about one step or one definition, with expected results from
spec/95_test_vectors.md or the spec's tables; and, for every statement with hypotheses, a concrete
state and operands that meet them. -/

namespace Sys2Proof.Tests

open Sys2Proof.Machine

/-! ## Helpers -/

/-- The base configuration with EXT_ALU. -/
def extParams : Params := { baseParams with extAlu := true }

/-- A constructed machine with EXT_ALU, some bytes placed at `pc`, and one register set. -/
def at_ (pc : Nat) (bytes : List Byte) (r : Reg := 0) (v : Byte := 0) : State :=
  let s := State.construct extParams
  { s with pc := pc, mem := placeBytes [] pc bytes, regs := s.regs.set r v }

/-- The same machine with one more register set. -/
def andReg (s : State) (r : Reg) (v : Byte) : State := { s with regs := s.regs.set r v }

/-- The same machine with other parameters. -/
def withParams (s : State) (p : Params) : State := { s with params := p }

/-- The state a step leads to, if there is one. -/
def next? (o : Host.Outcome State Fault Refusal) : Option State :=
  match o with
  | .next t => some t
  | .fault _ => none
  | .refused _ => none

/-- The state after a step; the state itself where there is none. -/
def after (s : State) : State := (next? (step s)).getD s

/-- One field of the state after a step. -/
def sees {α : Type} (s : State) (f : State → α) : Option α := (next? (step s)).map f

/-- The instruction decoded under the default map. -/
def word? (extAlu : Bool) (ir a b : Byte) : Option Instr :=
  (decode .default extAlu ir a b).toOption

/-! ## WellFormed: every register operand is checked (10_state.md R23, 40_execution_loop.md R91) -/

theorem test_wf_push : Instr.wf (.push 7) = true ∧ Instr.wf (.push 8) = false := by decide
theorem test_wf_pop : Instr.wf (.pop 7) = true ∧ Instr.wf (.pop 8) = false := by decide
theorem test_wf_prn : Instr.wf (.prn 7) = true ∧ Instr.wf (.prn 8) = false := by decide
theorem test_wf_call : Instr.wf (.call 7) = true ∧ Instr.wf (.call 8) = false := by decide
theorem test_wf_ldi : Instr.wf (.ldi 7 255) = true ∧ Instr.wf (.ldi 8 0) = false := by decide
theorem test_wf_add :
    Instr.wf (.add 7 7) = true ∧ Instr.wf (.add 8 0) = false ∧ Instr.wf (.add 0 8) = false := by decide
theorem test_wf_mul :
    Instr.wf (.mul 7 7) = true ∧ Instr.wf (.mul 8 0) = false ∧ Instr.wf (.mul 0 8) = false := by decide
theorem test_wf_sub :
    Instr.wf (.sub 7 7) = true ∧ Instr.wf (.sub 8 0) = false ∧ Instr.wf (.sub 0 8) = false := by decide
theorem test_wf_div :
    Instr.wf (.div 7 7) = true ∧ Instr.wf (.div 8 0) = false ∧ Instr.wf (.div 0 8) = false := by decide
theorem test_wf_no_operands : Instr.wf .hlt = true ∧ Instr.wf .ret = true := by decide

/-- Condition (a) of 30_encoding.md R67: no two instructions share a byte. -/
theorem test_map_injective :
    OpcodeMap.admissible { OpcodeMap.default with mul := 0xA0 } false = false := by decide

/-- Condition (b): the class is the operand count. -/
theorem test_map_class :
    OpcodeMap.admissible { OpcodeMap.default with hlt := 0x41 } false = false := by decide

/-- Condition (c): no byte of class 3. -/
theorem test_map_class_three :
    OpcodeMap.admissible { OpcodeMap.default with ldi := 0xC2 } false = false := by decide

/-- The default map meets the conditions in both configurations, and the bytes of SUB and DIV do not
count without EXT_ALU (30_encoding.md R68). -/
theorem test_map_default :
    OpcodeMap.default.admissible false = true ∧ OpcodeMap.default.admissible true = true ∧
    OpcodeMap.admissible { OpcodeMap.default with sub := 0xA0 } false = true ∧
    OpcodeMap.admissible { OpcodeMap.default with sub := 0xA0 } true = false := by decide

/-- Log entry 19: a map that gives 0x00 to HLT is admissible, and then an empty image halts; with a map
that gives it to no instruction 0x00 is illegal (30_encoding.md R69). -/
theorem test_map_zero :
    OpcodeMap.admissible { OpcodeMap.default with hlt := 0x00 } true = true ∧
    sees (State.construct { baseParams with opcodeMap := { OpcodeMap.default with hlt := 0x00 } })
      (·.status) = some .halted ∧
    sees (State.construct baseParams) (·.status) =
      some (.faulted ⟨.illegalOpcode, 0, some 0x00, .none⟩) := by decide

/-- 70_reset_and_hazards.md R192: an image of 257 bytes is refused, one of 256 is not. -/
theorem test_launch_length :
    launch baseParams (List.replicate 257 0) 0 = .refused .imageTooLong ∧
    ∃ s, launch baseParams (List.replicate 256 0) 0 = .next s := by
  refine ⟨if_pos (by rw [List.length_replicate]; decide),
    setPc (loadImage (State.construct baseParams) (List.replicate 256 0)) 0, ?_⟩
  simp only [launch, List.length_replicate]
  rfl

/-- An OPCODE_MAP that breaks a condition is refused. -/
theorem test_launch_map :
    launch { baseParams with opcodeMap := { OpcodeMap.default with ldi := 0xC2 } } [] 0 =
      .refused .opcodeMapInadmissible := rfl

/-! ## Decode: words written out from 30_encoding.md R60, R61 and R66 -/

theorem test_decode_hlt : word? true 0b00000001 0xFF 0xFF = some (.hlt) := by decide
theorem test_decode_ret : word? true 0b00010001 0 0 = some (.ret) := by decide
theorem test_decode_push : word? true 0b01000101 7 0xFF = some (.push 7) := by decide
theorem test_decode_pop : word? true 0b01000110 0 0 = some (.pop 0) := by decide
theorem test_decode_prn : word? true 0b01000111 9 0 = some (.prn 9) := by decide
theorem test_decode_call : word? true 0b01010000 1 0 = some (.call 1) := by decide
theorem test_decode_ldi : word? true 0b10000010 3 0xFF = some (.ldi 3 0xFF) := by decide
theorem test_decode_add : word? true 0b10100000 0 1 = some (.add 0 1) := by decide
theorem test_decode_mul : word? true 0b10100010 1 0 = some (.mul 1 0) := by decide
theorem test_decode_sub : word? true 0b10100001 2 3 = some (.sub 2 3) := by decide
theorem test_decode_div : word? true 0b10100011 0 2 = some (.div 0 2) := by decide

/-- 95_test_vectors.md section 2.1: the illegal bytes of the table. -/
theorem test_decode_illegal :
    ∀ op ∈ ([0x00, 0x02, 0x3F, 0x40, 0x48, 0xC0, 0xC3, 0xFF] : List Byte),
      word? true op 0 0 = none := by decide

/-- 95_test_vectors.md section 2.1: SUB and DIV are illegal without EXT_ALU, ADD and MUL are not. -/
theorem test_decode_base :
    word? false 0xA1 0 0 = none ∧ word? false 0xA3 0 0 = none ∧
    word? false 0xA0 0 0 = some (.add 0 0) ∧ word? false 0xA2 0 0 = some (.mul 0 0) := by decide

/-- 95_test_vectors.md section 3: the bytes of P1's and P4's instructions. -/
theorem test_encode :
    encode .default (.ldi 1 9) = [0x82, 0x01, 0x09] ∧ encode .default (.add 0 1) = [0xA0, 0x00, 0x01] ∧
    encode .default (.prn 0) = [0x47, 0x00] ∧ encode .default .hlt = [0x01] ∧
    encode .default (.call 1) = [0x50, 0x01] ∧ encode .default .ret = [0x11] := by decide

/-- A byte list that ends inside an instruction is refused by name. -/
theorem test_decode_truncated :
    decodeBytes .default false [0x82, 0x00] = .error .truncated := by rfl

/-! ## Reset (95_test_vectors.md section 2.11) -/

theorem test_reset_registers :
    readReg .reset sp = 0xF4 ∧ ∀ r : Reg, r ≠ sp → readReg .reset r = 0 := by decide

theorem test_reset_memory : Memory.wf State.reset.mem = true ∧ Memory.read State.reset.mem 255 = 0 := by
  decide

/-- The first fetch of an empty memory. -/
theorem test_reset_step :
    sees .reset (·.status) = some (.faulted ⟨.illegalOpcode, 0, some 0, .none⟩) := by decide

/-- Writing the reset value takes the entry away. -/
theorem test_memory_canonical :
    Memory.write [(3, 5)] 3 0 = [] ∧ Memory.write [(3, 5)] 2 7 = [(2, 7), (3, 5)] := by decide

/-! ## One step of each instruction (95_test_vectors.md sections 2.2 to 2.9) -/

theorem test_hlt :
    sees (at_ 253 [0x01]) (fun t => (t.status, t.running, t.pc, t.steps)) =
      some (.halted, false, 254, 1) := by decide

/-- The unconditional fetch faults first. -/
theorem test_hlt_at_254 :
    sees (at_ 254 [0x01]) (fun t => (t.status, t.running, t.pc, t.steps)) =
      some (.faulted ⟨.outOfBounds, 254, some 0x01, .address 256⟩, false, 254, 0) := by decide

theorem test_ldi :
    sees (at_ 253 [0x82, 0x00, 0x07]) (fun t => (readReg t 0, t.pc, t.steps)) =
      some (7, 256, 1) := by decide

theorem test_ldi_r8 :
    sees (at_ 0 [0x82, 0x08, 0x01]) (fun t => (t.status, t.regs)) =
      some (.faulted ⟨.illegalRegister, 0, some 0x82, .operand 8⟩, State.reset.regs) := by decide

theorem test_prn :
    sees (at_ 0 [0x47, 0x07]) (fun t => (t.out, t.pc)) = some ([244], 2) := by decide

theorem test_prn_r9 :
    sees (at_ 0 [0x47, 0x09]) (fun t => (t.out, t.status)) =
      some ([], .faulted ⟨.illegalRegister, 0, some 0x47, .operand 9⟩) := by decide

theorem test_add :
    sees (andReg (at_ 0 [0xA0, 0x00, 0x01] 0 200) 1 100) (fun t => (readReg t 0, readReg t 1, t.pc)) =
      some (44, 100, 3) := by decide

/-- `a` is checked before `b`. -/
theorem test_add_r8_r9 :
    sees (at_ 0 [0xA0, 0x08, 0x09]) (·.status) =
      some (.faulted ⟨.illegalRegister, 0, some 0xA0, .operand 8⟩) := by decide

theorem test_mul :
    sees (andReg (at_ 0 [0xA2, 0x00, 0x01] 0 200) 1 100) (fun t => (readReg t 0, readReg t 1)) =
      some (32, 100) := by decide

theorem test_mul_same : sees (at_ 0 [0xA2, 0x00, 0x00] 0 15) (readReg · 0) = some 225 := by decide

theorem test_sub :
    sees (andReg (at_ 0 [0xA1, 0x00, 0x01] 0 5) 1 7) (fun t => (readReg t 0, t.pc)) =
      some (254, 3) := by decide

theorem test_sub_base :
    sees (withParams (at_ 0 [0xA1, 0x00, 0x01]) baseParams) (·.status) =
      some (.faulted ⟨.illegalOpcode, 0, some 0xA1, .none⟩) := by decide

theorem test_div :
    sees (andReg (at_ 0 [0xA3, 0x00, 0x01] 0 255) 1 16) (fun t => (readReg t 0, t.pc)) =
      some (15, 3) := by decide

theorem test_div_by_zero :
    sees (at_ 0 [0xA3, 0x00, 0x01] 0 7) (fun t => (readReg t 0, t.status, t.pc)) =
      some (7, .faulted ⟨.divideByZero, 0, some 0xA3, .none⟩, 0) := by decide

/-- The stack pointer wraps. -/
theorem test_push_wrap :
    sees (andReg (at_ 4 [0x45, 0x00] 0 0x99) sp 0)
      (fun t => (readReg t sp, Memory.read t.mem 0xFF, t.pc)) = some (0xFF, 0x99, 6) := by decide

/-- PUSH R7 stores the decremented SP. -/
theorem test_push_sp :
    sees (at_ 0 [0x45, 0x07]) (fun t => (readReg t sp, Memory.read t.mem 0xF3)) =
      some (0xF3, 0xF3) := by decide

theorem test_pop_wrap :
    sees (at_ 253 [0x46, 0x00, 0x33] sp 0xFF) (fun t => (readReg t 0, readReg t sp, t.pc)) =
      some (0x33, 0, 255) := by decide

/-- POP R7 leaves `M[SP] + 1`. -/
theorem test_pop_sp :
    sees (at_ 0xF2 [0x46, 0x07, 0x10]) (readReg · sp) = some 0x11 := by decide

theorem test_call :
    sees (at_ 6 [0x50, 0x01] 1 13) (fun t => (Memory.read t.mem 0xF3, readReg t sp, t.pc)) =
      some (8, 0xF3, 13) := by decide

/-- CALL R7 reads its target after the push. -/
theorem test_call_sp :
    sees (at_ 0 [0x50, 0x07]) (fun t => (Memory.read t.mem 0xF3, readReg t sp, t.pc)) =
      some (2, 0xF3, 0xF3) := by decide

theorem test_ret :
    sees (at_ 0xF2 [0x11, 0x08] sp 0xF3) (fun t => (readReg t sp, t.pc)) = some (0xF4, 8) := by decide

theorem test_ret_wrap :
    sees (at_ 253 [0x11, 0x00, 0x0A] sp 0xFF) (fun t => (readReg t sp, t.pc)) = some (0, 10) := by decide

/-! ## Fetch, priority and the exits (95_test_vectors.md sections 2.2, 2.10 and 2.12) -/

theorem test_fetch_255 :
    sees (at_ 255 [0xC0]) (·.status) =
      some (.faulted ⟨.outOfBounds, 255, some 0xC0, .address 256⟩) := by decide

theorem test_fetch_256 :
    sees (at_ 256 []) (fun t => (t.status, t.pc)) =
      some (.faulted ⟨.outOfBounds, 256, none, .address 256⟩, 256) := by decide

theorem test_priority_decode :
    sees (at_ 0 [0xC0, 0x08, 0x09]) (·.status) =
      some (.faulted ⟨.illegalOpcode, 0, some 0xC0, .none⟩) := by decide

theorem test_priority_register :
    sees (at_ 0 [0xA3, 0x00, 0x09]) (·.status) =
      some (.faulted ⟨.illegalRegister, 0, some 0xA3, .operand 9⟩) := by decide

theorem test_step_cap :
    step (withParams (at_ 0 [0x01]) { baseParams with stepCap := some 0 }) =
      .next (stopRun (withParams (at_ 0 [0x01]) { baseParams with stepCap := some 0 }) .stepCap) := by
  rfl

/-- CANCEL is tested before the cap. -/
theorem test_cancel :
    sees (withParams (at_ 0 [0x01])
        { baseParams with stepCap := some 0, cancel := .present [true] })
      (fun t => (t.status, t.pc, t.steps)) = some (.stopped .cancelled, 0, 0) := by decide

theorem test_ended : step (haltRun .reset) = .fault .notRunning := by rfl

/-- The bytes a fault's reader sees next are those just stored (20_memory.md R50): P7's PUSH over the
next instruction. -/
theorem test_self_modifying :
    sees (after (andReg (at_ 6 [0x45, 0x00, 0x47, 0x00] 0 1) sp 9)) (fun t => (t.status, t.pc)) =
      some (.halted, 9) := by decide

/-! ## Witnesses: for each statement with hypotheses, a state and operands that meet them -/

/-- Meets the hypotheses of ConstructedStateHoldsResetValues: a register beside SP, the last cell,
and a valid launch of 256 bytes. -/
theorem witness_constructed_state_holds_reset_values :
    (6 : Reg) ≠ sp ∧ 255 < 256 ∧
    (List.replicate 256 (1 : Byte)).length ≤ 256 ∧ paramsOk baseParams = true :=
  ⟨by decide, by decide, by rw [List.length_replicate], by decide⟩

/-- Meets the hypotheses of LaunchLoadsTheImage: each of the three clauses, at 256 and 257 bytes. -/
theorem witness_launch_loads_the_image :
    ((List.replicate 256 (1 : Byte)).length ≤ 256 ∧ paramsOk baseParams = true) ∧
    256 < (List.replicate 257 (1 : Byte)).length ∧
    (([] : List Byte).length ≤ 256 ∧
      paramsOk { baseParams with opcodeMap := { OpcodeMap.default with ldi := 0xC2 } } = false) :=
  ⟨⟨by rw [List.length_replicate], by decide⟩, by rw [List.length_replicate]; decide, by decide⟩

/-- Meets the hypotheses of RegisterWriteReducesModulo256: a register other than the one written. -/
theorem witness_register_write_reduces_modulo256 :
    (6 : Reg) ≠ sp := by decide

/-- Meets the hypotheses of MemoryInterfaceChecksTheRange: the last address and the first outside.
-/
theorem witness_memory_interface_checks_the_range :
    Memory.wf (at_ 255 [9]).mem = true ∧ 255 < 256 ∧ 256 ≤ 256 := by decide

/-- Meets the hypotheses of StepKeepsTheInvariant: a state that stores over the top cell. -/
theorem witness_step_keeps_the_invariant :
    (andReg (at_ 0 [0x45, 0x00]) sp 0).Inv ∧
    ∃ t, step (andReg (at_ 0 [0x45, 0x00]) sp 0) = .next t :=
  ⟨⟨by decide, by decide, by decide, by decide⟩, _, rfl⟩

/-- Meets the hypotheses of LaunchBeginsInTheInvariant: START_PC at the end of its range. -/
theorem witness_launch_begins_in_the_invariant :
    256 ≤ 256 ∧ ∃ s, launch baseParams [0x01] 256 = .next s := ⟨by decide, _, rfl⟩

/-- Meets the hypotheses of ReachableStatesAreSound: a reachable state, with a fault record. -/
theorem witness_reachable_states_are_sound :
    ∃ t f, Reachable t ∧ t.faultRecord? = some f :=
  ⟨_, _, ⟨baseParams, [], 0, .reset, by decide, rfl, .tail (.refl _) rfl⟩, rfl⟩

/-- Meets the hypotheses of LoopEndsInThreeWays: a machine without a step, a step that goes on, one
for each end, and no opt-in. -/
theorem witness_loop_ends_in_three_ways :
    (next? (step (haltRun .reset))).isSome = false ∧
    (∀ s ∈ [at_ 0 [0x82, 0, 1], at_ 0 [0x01], at_ 0 [0x00],
      withParams .reset { baseParams with cancel := .present [true] },
      withParams .reset { baseParams with stepCap := some 0 }],
      s.runningAgrees ∧ (next? (step s)).isSome = true) ∧
    (at_ 0 [0x01]).params.stepCap = none ∧ (at_ 0 [0x01]).params.cancel = .absent := by decide

/-- Meets the hypotheses of ParametersNeverChange: a run of one step. -/
theorem witness_parameters_never_change :
    ∃ t, Reaches (at_ 0 [0x01]) t ∧ t.status = .halted := ⟨_, .tail (.refl _) rfl, rfl⟩

/-- Meets the hypotheses of DecodeOfEncode: an instruction of the table with EXT_ALU. -/
theorem witness_decode_of_encode :
    OpcodeMap.default.admissible true = true ∧ (Instr.div 255 255).op ∈ Op.table true := by decide

/-- Meets the hypotheses of EncodeOfDecode: bytes that decode, with a byte after them. -/
theorem witness_encode_of_decode :
    OpcodeMap.default.admissible false = true ∧
    decodeBytes .default false [0x82, 0x03, 0xFF, 0x01] = .ok (.ldi 3 0xFF, [0x01]) :=
  ⟨by decide, rfl⟩

/-- Meets the hypotheses of EveryOpcodeByteIsClassified: each clause; the machine at the last
address a fetch can use. -/
theorem witness_every_opcode_byte_is_classified :
    opClass 0xC0 = 3#2 ∧ opClass 0xFF = 3#2 ∧
    (opClass 0xBF ≠ 3#2 ∧ ∀ o ∈ Op.table true, OpcodeMap.default.byte o ≠ 0xBF) ∧
    (opClass 0x01 ≠ 3#2 ∧ ∃ o ∈ Op.table false, OpcodeMap.default.byte o = 0x01) ∧
    ((at_ 253 [0xC0]).enabled ∧ (at_ 253 [0xC0]).pc + 2 < 256 ∧
      (decodeOp (at_ 253 [0xC0]).params.opcodeMap (at_ 253 [0xC0]).params.extAlu
        (Memory.read (at_ 253 [0xC0]).mem (at_ 253 [0xC0]).pc)).toOption = none) := by decide

/-- Meets the hypotheses of ClassGivesCountAndLength: a legal byte and its handler's completion. -/
theorem witness_class_gives_count_and_length :
    OpcodeMap.default.admissible false = true ∧
    (decodeOp .default false 0x82).toOption.map (·.ins) = some .ldi ∧ Op.ldi ≠ .call ∧ Op.ldi ≠ .ret ∧
    (next? (exec (Op.ldi.withOperands 7 1) (at_ 253 []))).map (·.faultRecord?) = some none := by
  decide

/-- Meets the hypotheses of DecoderSelectsTheAluOperation: a legal byte for each ALU operation. -/
theorem witness_decoder_selects_the_alu_operation :
    [(0xA0 : Byte), 0xA1, 0xA2, 0xA3].map
      (fun op => (decodeOp .default true op).toOption.map (fun d => (d.ins, d.aluop))) =
    [some (.add, some .add), some (.sub, some .sub), some (.mul, some .mul),
      some (.div, some .div)] := by decide

/-- Meets the hypotheses of UnusedOperandBytesAreIgnored: a legal byte of each of the two counts. -/
theorem witness_unused_operand_bytes_are_ignored :
    (decodeOp .default false 0x01).toOption.map (·.ins.operandCount) = some 0 ∧
    (decodeOp .default false 0x50).toOption.map (·.ins.operandCount) = some 1 := by decide

/-- Meets the hypotheses of ExtAluGatesSubAndDiv: an admissible map. -/
theorem witness_ext_alu_gates_sub_and_div :
    OpcodeMap.default.admissible true = true := by decide

/-- Meets the hypotheses of StepRunsTheDecodedInstruction: at the last address a fetch can use, one
that completes and one that faults. -/
theorem witness_step_runs_the_decoded_instruction :
    (∀ s ∈ [at_ 253 [0x47, 0x07, 0x00], at_ 253 [0x47, 0x08, 0x00]],
      s.enabled ∧ s.pc + 2 < 256 ∧ s.current.isSome = true) ∧
    ((at_ 253 [0x47, 0x07, 0x00]).current.bind
      (fun i => next? (exec i (at_ 253 [0x47, 0x07, 0x00]).latched))).map (·.status) =
        some .running ∧
    ((at_ 253 [0x47, 0x08, 0x00]).current.bind
      (fun i => next? (exec i (at_ 253 [0x47, 0x08, 0x00]).latched))).map (·.status) =
        some (.faulted ⟨.illegalRegister, 253, some 0x47, .operand 8⟩) := by decide

/-- Meets the hypotheses of FetchReadsThreeBytes: the clauses at 253, 254, 255 and 256. -/
theorem witness_fetch_reads_three_bytes :
    (at_ 253 []).pc + 2 < 256 ∧ ((at_ 254 []).enabled ∧ (at_ 254 []).pc = 254) ∧
    ((at_ 255 []).enabled ∧ (at_ 255 []).pc = 255) ∧ ((at_ 256 []).enabled ∧ 256 ≤ (at_ 256 []).pc) := by
  decide

/-- Meets the hypotheses of FirstFaultOfThePriorityList: an enabled machine that faults and one the
cap stops. -/
theorem witness_first_fault_of_the_priority_list :
    ((at_ 253 [0xA0, 0x07, 0x08]).enabled ∧ (firstFault (at_ 253 [0xA0, 0x07, 0x08])).isSome = true ∧
      (next? (step (at_ 253 [0xA0, 0x07, 0x08]))).isSome = true) ∧
    (¬ (withParams .reset { baseParams with stepCap := some 0 }).enabled ∧
      (next? (step (withParams .reset { baseParams with stepCap := some 0 }))).isSome = true) := by
  decide

/-- Meets the hypotheses of FaultsArePrecise: a step that faults with something to lose. -/
theorem witness_faults_are_precise :
    ∃ t f, step (andReg (at_ 0 [0x45, 0x08] 0 1) sp 9) = .next t ∧ t.status = .faulted f :=
  ⟨_, _, rfl, rfl⟩

/-- Meets the hypotheses of RegisterIndicesAreChecked: the clauses at 7 and 8. -/
theorem witness_register_indices_are_checked :
    (8 : Nat) ≤ (8#8).toNat ∧ (7#8).toNat < 8 ∧ 8 ≤ (8#8).toNat ∧ State.reset.faultFree := by decide

/-- Meets the hypotheses of IllFormedExactlyWhenIllegalRegister: an ill-formed and a well-formed
instruction. -/
theorem witness_ill_formed_exactly_when_illegal_register :
    State.reset.faultFree ∧ Instr.wf (.ldi 8 0) = false ∧ Instr.wf (.ldi 7 0) = true ∧
    (next? (exec (.ldi 8 0) .reset)).isSome = true ∧ (next? (exec (.ldi 7 0) .reset)).isSome = true := by
  decide

/-- Meets the hypotheses of DivideByZeroIsRaised: a divisor of 0, and a fault without EXT_ALU. -/
theorem witness_divide_by_zero_is_raised :
    ((7#8).toNat < 8 ∧ (6#8).toNat < 8 ∧ readReg .reset (regOf 6) = 0) ∧
    State.reset.params.extAlu = false ∧ ∃ t f, step .reset = .next t ∧ t.status = .faulted f :=
  ⟨by decide, rfl, _, _, rfl, rfl⟩

/-- Meets the hypotheses of LdiResult: both clauses. -/
theorem witness_ldi_result :
    (7#8).toNat < 8 ∧ 8 ≤ (8#8).toNat := by decide

/-- Meets the hypotheses of PrnResult: both clauses. -/
theorem witness_prn_result :
    (7#8).toNat < 8 ∧ 8 ≤ (8#8).toNat := by decide

/-- Meets the hypotheses of AddAndMulResult: every clause. -/
theorem witness_add_and_mul_result :
    ((7#8).toNat < 8 ∧ (7#8).toNat < 8) ∧ 8 ≤ (8#8).toNat ∧ ((7#8).toNat < 8 ∧ 8 ≤ (8#8).toNat) := by
  decide

/-- Meets the hypotheses of SubResult: an admissible map and every clause. -/
theorem witness_sub_result :
    OpcodeMap.default.admissible true = true ∧ ((7#8).toNat < 8 ∧ (7#8).toNat < 8) ∧
    8 ≤ (8#8).toNat ∧ ((7#8).toNat < 8 ∧ 8 ≤ (8#8).toNat) := by decide

/-- Meets the hypotheses of DivResult: an admissible map and every clause, with a divisor of 1 and
of 0. -/
theorem witness_div_result :
    OpcodeMap.default.admissible true = true ∧
    ((0#8).toNat < 8 ∧ (7#8).toNat < 8 ∧ readReg (at_ 0 [] 7 1) (regOf 7) ≠ 0) ∧
    ((7#8).toNat < 8 ∧ (0#8).toNat < 8 ∧ readReg .reset (regOf 0) = 0) ∧
    8 ≤ (8#8).toNat ∧ ((7#8).toNat < 8 ∧ 8 ≤ (8#8).toNat) := by decide

/-- Meets the hypotheses of HltResult: an HLT at 254 and at 255. -/
theorem witness_hlt_result :
    ∀ s ∈ [at_ 254 [0x01], at_ 255 [0x01]],
      s.enabled ∧ (s.pc = 254 ∨ s.pc = 255) ∧ (next? (step s)).isSome = true := by decide

/-- Meets the hypotheses of PushResult: both clauses. -/
theorem witness_push_result :
    (7#8).toNat < 8 ∧ 8 ≤ (8#8).toNat := by decide

/-- Meets the hypotheses of PopResult: every clause: R6, R7 and an illegal index. -/
theorem witness_pop_result :
    ((6#8).toNat < 8 ∧ regOf 6 ≠ sp) ∧ ((7#8).toNat < 8 ∧ regOf 7 = sp) ∧ 8 ≤ (8#8).toNat := by
  decide

/-- Meets the hypotheses of CallResult: both clauses, at the last address a fetch can use. -/
theorem witness_call_result :
    ((7#8).toNat < 8 ∧ (at_ 253 []).pc + 2 < 256) ∧ 8 ≤ (8#8).toNat := by decide

/-- Meets the hypotheses of ArithmeticLaws: the divisors 1 and 0. -/
theorem witness_arithmetic_laws :
    (1#8) ≠ 0 ∧ (0#8) = 0 := by decide

/-- Meets the hypotheses of FrameOfRegisterInstructions: each instruction answers a next state, and
a register is left over. -/
theorem witness_frame_of_register_instructions :
    (∀ i ∈ [Instr.ldi 6 7, .add 6 7, .mul 6 7, .sub 6 7, .div 6 7],
      (next? (exec i .reset)).isSome = true) ∧ (7 : Reg) ≠ regOf 6 := by decide

/-- Meets the hypotheses of FrameOfPrnAndHlt: both instructions answer a next state. -/
theorem witness_frame_of_prn_and_hlt :
    ∀ i ∈ [Instr.prn 7, .hlt], (next? (exec i .reset)).isSome = true := by decide

/-- Meets the hypotheses of FrameOfPushAndCall: both instructions answer a next state, with SP at 0;
a register and a cell left over. -/
theorem witness_frame_of_push_and_call :
    (∀ i ∈ [Instr.push 7, .call 7], (next? (exec i (at_ 0 [] sp 0))).isSome = true) ∧
    (6 : Reg) ≠ sp ∧
    254 ≠ (readReg (writeReg (at_ 0 [] sp 0) sp ((readReg (at_ 0 [] sp 0) sp).toNat - 1)) sp).toNat := by
  decide

/-- Meets the hypotheses of FrameOfPopAndRet: both instructions answer a next state; a register is
left over. -/
theorem witness_frame_of_pop_and_ret :
    (∀ i ∈ [Instr.pop 6, .ret], (next? (exec i .reset)).isSome = true) ∧
    (5 : Reg) ≠ sp ∧ (5 : Reg) ≠ regOf 6 := by decide

/-- Meets the hypotheses of OnlyPushAndCallWriteMemory: a step that changes the top cell. -/
theorem witness_only_push_and_call_write_memory :
    ∃ t, step (andReg (at_ 0 [0x45, 0x00] 0 9) sp 0) = .next t ∧
      Memory.read t.mem 255 ≠ Memory.read (andReg (at_ 0 [0x45, 0x00] 0 9) sp 0).mem 255 :=
  ⟨_, rfl, by decide⟩

/-- Meets the hypotheses of OnlyPrnWritesTheOutput: a step that writes the output. -/
theorem witness_only_prn_writes_the_output :
    ∃ t, step (at_ 0 [0x47, 0x07]) = .next t ∧ t.out = [244] := ⟨_, rfl, rfl⟩

/-- Meets the hypotheses of OutputIsNeverRead: a step that writes the output. -/
theorem witness_output_is_never_read :
    ∃ t, step (at_ 0 [0x47, 0x07]) = .next t := ⟨_, rfl⟩

/-- Meets the hypotheses of LatchesAreSetBeforeTheyAreRead: a step that uses both latches. -/
theorem witness_latches_are_set_before_they_are_read :
    ∃ t, step (at_ 0 [0x82, 0x07, 0x09]) = .next t := ⟨_, rfl⟩

/-- Meets the hypotheses of ProgramCounterEffect: every instruction completes, a handler faults, and
a step faults in the fetch and in the decoder. -/
theorem witness_program_counter_effect :
    (∀ i ∈ [Instr.ldi 7 0, .add 0 7, .mul 0 7, .sub 0 7, .div 0 7, .prn 7, .push 7, .pop 7, .hlt,
        .call 7, .ret],
      (next? (exec i .reset)).map (·.faultRecord?) = some none) ∧
    (∀ s ∈ [at_ 254 [0x01], at_ 253 [0xC0]], (sees s (·.faultRecord?)).join.isSome = true) ∧
    State.reset.faultFree ∧
    ((next? (exec (.ldi 8 0) .reset)).bind (·.faultRecord?)).isSome = true := by decide

/-- Meets the hypotheses of ProgramCounterIsNeverReduced: an advance to 256, and a RET that lowers
pc. -/
theorem witness_program_counter_is_never_reduced :
    ((at_ 253 [0x82, 0x00, 0x07]).pc = 253 ∧
      (at_ 253 [0x82, 0x00, 0x07]).current.map (·.op.length) = some 3 ∧
      (at_ 253 [0x82, 0x00, 0x07]).enabled ∧
      sees (at_ 253 [0x82, 0x00, 0x07]) (·.faultRecord?) = some none ∧
      (after (at_ 253 [0x82, 0x00, 0x07])).enabled) ∧
    ∃ t, step (at_ 1 [0x11]) = .next t ∧ t.pc < (at_ 1 [0x11]).pc :=
  ⟨by decide, _, rfl, by decide⟩

/-- Meets the hypotheses of StepsCountCompletedInstructions: a step to each of the four statuses. -/
theorem witness_steps_count_completed_instructions :
    sees (at_ 0 [0x11]) (·.status) = some .running ∧ sees (at_ 0 [0x01]) (·.status) = some .halted ∧
    (sees (at_ 0 [0x00]) (·.status)).isSome = true ∧
    sees (withParams .reset { baseParams with stepCap := some 0 }) (·.status) =
      some (.stopped .stepCap) := by decide

/-- Meets the hypotheses of StepCapLimitsTheRun: a cap of exactly the steps done, and a reachable
state with a cap. -/
theorem witness_step_cap_limits_the_run :
    ((withParams .reset { baseParams with stepCap := some 0 }).status = .running ∧
      cancelSignalled (withParams .reset { baseParams with stepCap := some 0 }) = false ∧
      0 ≤ (withParams .reset { baseParams with stepCap := some 0 }).steps) ∧
    ∃ t, Reachable t ∧ t.params.stepCap = some 1 ∧ t.steps = 1 :=
  ⟨by decide, _, ⟨{ baseParams with stepCap := some 1 }, [0x01], 0, _, by decide, rfl,
    .tail (.refl _) rfl⟩, rfl, rfl⟩

/-- Meets the hypotheses of CancelStopsTheRunFirst: a schedule signalled at the first iteration. -/
theorem witness_cancel_stops_the_run_first :
    (withParams .reset { baseParams with cancel := .present [true] }).status = .running ∧
    ([true] : List Bool).getD State.reset.steps false = true := by decide

/-- Meets the hypotheses of EndedMachinesStayEnded: a machine of each end. -/
theorem witness_ended_machines_stay_ended :
    ∀ s ∈ [haltRun .reset, stopRun .reset .stepCap, stopRun .reset .cancelled,
      State.reset.faultWith .illegalOpcode .none], s.status ≠ .running := by decide

/-- Meets the hypotheses of RunningMachinesAlwaysStep: a running machine, and a step of it. -/
theorem witness_running_machines_always_step :
    State.reset.status = .running ∧ ∃ t, step .reset = .next t := ⟨rfl, _, rfl⟩

/-- Meets the hypotheses of OnlyTheFetchIsOutOfBounds: a handler's fault, and the step's fault at
253 and at 254. -/
theorem witness_only_the_fetch_is_out_of_bounds :
    State.reset.faultFree ∧
    (∃ t f, exec (.push 8) .reset = .next t ∧ t.status = .faulted f) ∧
    (∃ t f, step (at_ 253 [0xC0]) = .next t ∧ t.status = .faulted f) ∧
    (∃ t f, step (at_ 254 [0x01]) = .next t ∧ t.status = .faulted f) :=
  ⟨rfl, ⟨_, _, rfl, rfl⟩, ⟨_, _, rfl, rfl⟩, ⟨_, _, rfl, rfl⟩⟩

/-- Meets the hypotheses of PushThenPopIsIdentity: R7, with SP at 0. -/
theorem witness_push_then_pop_is_identity :
    Memory.wf (at_ 0 [0x45, 0x07] sp 0).mem = true ∧ (7#8).toNat < 8 := by decide

/-- Meets the hypotheses of CallThenRetReturns: R7, at the last address a fetch can use. -/
theorem witness_call_then_ret_returns :
    Memory.wf (at_ 253 [0x50, 0x07]).mem = true ∧ (7#8).toNat < 8 ∧ (at_ 253 [0x50, 0x07]).pc + 2 < 256 := by
  decide

/-- Meets the hypotheses of LdiThenPrnRoundTrips: R7. -/
theorem witness_ldi_then_prn_round_trips :
    (7#8).toNat < 8 := by decide

end Sys2Proof.Tests
end

/-! PROOFS. The state after construction and after the image hand-over (10_state.md R36,
70_reset_and_hazards.md R191, R192). -/

namespace Sys2Proof.Machine

@[simp] theorem construct_faultRecord? (p : Params) : (State.construct p).faultRecord? = none := rfl

/-- The converse of `launch_next`: a launch that passes both checks begins a run. -/
theorem launch_of_valid {p : Params} {image : List Byte} (startPc : Nat)
    (hlen : image.length ≤ 256) (hp : paramsOk p = true) :
    launch p image startPc = .next (setPc (loadImage (State.construct p) image) startPc) := by
  have hfits : ¬ Config.memSize < image.length := Nat.not_lt.mpr hlen
  rw [launch, if_neg hfits, if_neg (by simp [hp])]

/-- An image that fits stands from address 0 on, with 0 in every other cell. -/
theorem read_loadImage_construct (p : Params) {image : List Byte} (hlen : image.length ≤ 256)
    (addr : Nat) :
    Memory.read (loadImage (State.construct p) image).mem addr =
      if addr < image.length then image.getD addr 0 else 0 := by
  have hload := Memory.read_load (m := []) (a := 0) image rfl (by simpa using hlen) addr
  simpa only [loadImage_mem, construct_mem, Nat.zero_add, Memory.read_nil] using hload

/-- Settles O1: the reset values are those of the laws of construction; a valid launch is the
constructed state with `pc` set and the image loaded; `read_loadImage_construct` gives its cells. -/
theorem constructedStateHoldsResetValues : Obligations.ConstructedStateHoldsResetValues := by
  refine ⟨fun p => ?construction, fun p image startPc hlen hp => ?launched, rfl⟩
  case construction =>
    have hcells : ∀ addr, addr < 256 → Memory.read (State.construct p).mem addr = 0 := by simp
    exact ⟨construct_sp p, construct_general p, construct_pc p, construct_running p,
      construct_status p, construct_faultRecord? p, construct_ir p, construct_latchA p,
      construct_latchB p, construct_out p, construct_steps p, hcells, construct_params p⟩
  case launched =>
    exact ⟨_, launch_of_valid startPc hlen hp, setPc_pc _ _,
      fun addr _ => read_loadImage_construct p hlen addr⟩

end Sys2Proof.Machine

/-! PROOFS. The memory interface: `MemRead` and `MemWrite` inside and outside 0 to 255
(20_memory.md R42, R43). -/

namespace Sys2Proof.Machine

/-- An access that raises OutOfBounds ends its instruction, whatever the instruction would have gone
on to do with the answer: only the fault is entered (20_memory.md R42, R43). -/
theorem conclude_bind_outOfBounds {α : Type} (s : State) {access : Except FaultCause α} {addr : Nat}
    (h : access = .error (.outOfBounds addr)) (k : α → Except FaultCause State) :
    conclude s (access >>= k) = .next (s.faultWith .outOfBounds (.address addr)) := by
  subst h
  rfl

/-- Settles O4: inside the range by the laws of reading after a write, outside it by
`conclude_bind_outOfBounds` for the read and for the write. -/
theorem memoryInterfaceChecksTheRange : Obligations.MemoryInterfaceChecksTheRange := by
  refine fun s addr v hwf => ⟨fun hin => ?inside, fun hout => ?outside⟩
  case inside =>
    exact ⟨memRead_inside s hin, _, memWrite_inside s v hin, Memory.read_write_same hwf addr v,
      fun _ hother => Memory.read_write_other s.mem v hother, rfl⟩
  case outside =>
    have hread := memRead_outside s hout
    have hwrite := memWrite_outside s v hout
    exact ⟨hread, hwrite, conclude_bind_outOfBounds s hread, conclude_bind_outOfBounds s hwrite⟩

end Sys2Proof.Machine

/-! PROOFS. The classification of the opcode bytes: what the decoder answers, how many bytes are
illegal, and the fault an illegal byte raises (30_encoding.md R67, R69). -/

namespace Sys2Proof

/-! ## What the decoder answers -/

theorem decodeOp_of_class_three (m : OpcodeMap) (x : Bool) {op : Byte} (hc : opClass op = 3#2) :
    decodeOp m x op = .error (.unusedClass op) := by
  rw [decodeOp, if_pos hc]

theorem decodeOp_of_lookup_none {m : OpcodeMap} {x : Bool} {op : Byte} (hc : opClass op ≠ 3#2)
    (hl : lookup m x op = none) : decodeOp m x op = .error (.notInTable op) := by
  rw [decodeOp, if_neg hc, hl]

theorem decodeOp_of_lookup_some {m : OpcodeMap} {x : Bool} {op : Byte} {o : Op}
    (hc : opClass op ≠ 3#2) (hl : lookup m x op = some o) :
    decodeOp m x op =
      .ok { ins := o, cls := opClass op, len := (opClass op).toNat + 1, aluop := o.aluOp? } := by
  rw [decodeOp, if_neg hc, hl]

/-- The byte of an instruction of the table is found, though not always for that instruction: an
inadmissible map may give two the same byte. -/
theorem exists_lookup_of_mem_table {m : OpcodeMap} {x : Bool} {op : Byte}
    (h : ∃ o ∈ Op.table x, m.byte o = op) : ∃ o, lookup m x op = some o := by
  rw [← Option.ne_none_iff_exists']
  obtain ⟨o, ho, hbyte⟩ := h
  exact fun hnone => lookup_none.mp hnone o ho hbyte

/-- Operands play no part in an illegal opcode. -/
theorem decode_of_decodeOp_error {m : OpcodeMap} {x : Bool} {ir : Byte} {e : DecodeError}
    (h : decodeOp m x ir = .error e) (a b : Byte) : decode m x ir a b = .error e := by
  rw [decode, h]

/-! ## How many bytes are illegal -/

/-- Under an admissible map the illegal bytes are exactly those the table does not hold: no byte of
the table has class 3 (30_encoding.md R67(c)). -/
theorem decodeOp_isNone_iff {m : OpcodeMap} {x : Bool} (hm : m.admissible x = true) (op : Byte) :
    (decodeOp m x op).toOption.isNone = true ↔ op ∉ (Op.table x).map m.byte := by
  obtain ⟨-, -, hclass⟩ := admissible_iff.mp hm
  cases hd : decodeOp m x op with
  | error e =>
    suffices op ∉ (Op.table x).map m.byte from iff_of_true rfl this
    rw [List.mem_map]
    rintro ⟨o, ho, rfl⟩
    rcases decodeOp_error hd with ⟨hc, -⟩ | ⟨-, hl, -⟩
    · exact hclass o ho hc
    · exact lookup_none.mp hl o ho rfl
  | ok d =>
    obtain ⟨-, o, hl, -⟩ := decodeOp_ok hd
    obtain ⟨ho, hbyte⟩ := lookup_some hl
    exact iff_of_false (by simp [Except.toOption]) (not_not.mpr (List.mem_map.mpr ⟨o, ho, hbyte⟩))

/-- The 256 byte values, as the statement lists them. -/
def everyByte : List Byte := (List.range 256).map (BitVec.ofNat 8)

@[simp] theorem length_everyByte : everyByte.length = 256 := by simp [everyByte]

@[simp] theorem mem_everyByte (op : Byte) : op ∈ everyByte :=
  List.mem_map.mpr ⟨op.toNat, List.mem_range.mpr op.isLt, by simp⟩

theorem nodup_everyByte : everyByte.Nodup := by
  refine List.Nodup.map_on (fun a ha b hb hab => ?_) List.nodup_range
  rw [List.mem_range] at ha hb
  bv_omega

/-- A list of different bytes leaves out all the others. -/
theorem countP_everyByte_notMem {l : List Byte} (hl : l.Nodup) :
    everyByte.countP (fun op => op ∉ l) = 256 - l.length := by
  have hin : everyByte.countP (fun op => op ∈ l) = l.length := by
    rw [List.countP_eq_length_filter]
    refine List.Perm.length_eq ((List.perm_ext_iff_of_nodup (nodup_everyByte.filter _) hl).mpr ?_)
    simp
  have hsplit := List.length_eq_countP_add_countP (fun op => decide (op ∈ l)) (l := everyByte)
  simp only [length_everyByte, hin, decide_eq_true_eq] at hsplit
  omega

/-- Every admissible map makes all bytes illegal but one per instruction of the table: the map is
injective on the table (30_encoding.md R67(a)). -/
theorem countP_illegal {m : OpcodeMap} {x : Bool} (hm : m.admissible x = true) :
    ((List.range 256).countP fun n => (decodeOp m x (BitVec.ofNat 8 n)).toOption.isNone) =
      256 - (Op.table x).length := by
  obtain ⟨hinj, -, -⟩ := admissible_iff.mp hm
  calc
    _ = everyByte.countP (fun op => (decodeOp m x op).toOption.isNone) := by
      rw [everyByte, List.countP_map]; rfl
    _ = everyByte.countP (fun op => op ∉ (Op.table x).map m.byte) :=
      List.countP_congr fun op _ => by simpa using decodeOp_isNone_iff hm op
    _ = 256 - (Op.table x).length := by rw [countP_everyByte_notMem hinj, List.length_map]

end Sys2Proof

namespace Sys2Proof.Machine

/-! ## The fault an illegal byte raises -/

/-- An iteration that fetches an illegal byte enters IllegalOpcode in the state it began in: the
latches the fetch set are discarded with it (60_exceptions.md R171). -/
theorem fetchExecute_illegal {s : State} {e : DecodeError} (hpc : s.pc + 2 < 256)
    (hd : decodeOp s.params.opcodeMap s.params.extAlu (Memory.read s.mem s.pc) = .error e) :
    fetchExecute s = .next (takeFault s
      (FaultCause.illegalOpcode.record s.pc (some (Memory.read s.mem s.pc)))) := by
  simp only [fetchExecute, fetch_inside s hpc, latched_params, latched_ir,
    decode_of_decodeOp_error hd]

/-- Settles O12: the three clauses are the decoder's three answers, the fault is that of
`fetchExecute_illegal`, and the counts are `countP_illegal` for tables of 9 and 11 instructions. -/
theorem everyOpcodeByteIsClassified : Obligations.EveryOpcodeByteIsClassified := by
  refine ⟨fun m x op => ⟨decodeOp_of_class_three m x, fun hc habsent => ?absent,
    fun hc hpresent => ?present⟩, fun s e hen hpc hd => ?fault, ?base, ?ext⟩
  case absent => exact decodeOp_of_lookup_none hc (lookup_none.mpr habsent)
  case present =>
    obtain ⟨o, hl⟩ := exists_lookup_of_mem_table hpresent
    obtain ⟨-, hbyte⟩ := lookup_some hl
    exact ⟨_, decodeOp_of_lookup_some hc hl, hbyte⟩
  case fault =>
    rw [step_enabled hen, fetchExecute_illegal hpc hd]
    rfl
  case base => exact countP_illegal (m := .default) (x := false) (by decide)
  case ext => exact countP_illegal (m := .default) (x := true) (by decide)

end Sys2Proof.Machine

/-! PROOFS. What an iteration does to `pc`, `steps`, the status and the parameters, said once for
every handler and every step (40_execution_loop.md R80, R97 to R101). -/

namespace Sys2Proof.Machine

/-! ## Fault-free states -/

theorem faultFree_iff {s : State} : s.faultFree ↔ ∀ f, s.status ≠ .faulted f := by
  unfold State.faultFree State.faultRecord?
  cases s.status <;> simp

theorem not_faultFree_takeFault (s : State) (f : FaultRecord) : ¬ (takeFault s f).faultFree :=
  fun h => faultFree_iff.mp h f rfl

/-! ## What a completed handler leaves alone -/

theorem Effect.steps_eq {s t : State} {i : Instr} (h : Effect s i t) : t.steps = s.steps := by
  cases h <;> rfl

theorem Effect.params_eq {s t : State} {i : Instr} (h : Effect s i t) : t.params = s.params := by
  cases h <;> rfl

/-- Only HLT touches the status and `running`. -/
theorem Effect.status_cases {s t : State} {i : Instr} (h : Effect s i t) :
    (t.status = s.status ∧ t.running = s.running) ∨
      (i = .hlt ∧ t.status = .halted ∧ t.running = false) := by
  cases h with
  | halt => exact .inr ⟨rfl, rfl, rfl⟩
  | _ => exact .inl ⟨rfl, rfl⟩

theorem Effect.faultFree {s t : State} {i : Instr} (h : Effect s i t) (hs : s.faultFree) :
    t.faultFree := by
  rw [faultFree_iff] at hs ⊢
  rcases h.status_cases with ⟨hst, -⟩ | ⟨-, hst, -⟩
  · rwa [hst]
  · simp [hst]

/-! ## The next pc -/

/-- The next `pc` of an instruction that completes (40_execution_loop.md R97): the table's advance,
and the jumps of CALL (45_subroutine.md R155) and RET (R158). -/
def nextPc (s : State) : Instr → Nat
  | .call a => (if regOf a = sp then readReg s sp - 1 else readReg s (regOf a)).toNat
  | .ret => (Memory.read s.mem (readReg s sp).toNat).toNat
  | i => s.pc + i.op.length

theorem nextPc_of_not_jump (s : State) {i : Instr} (hcall : i.op ≠ .call) (hret : i.op ≠ .ret) :
    nextPc s i = s.pc + i.op.length := by
  cases i with
  | call a => exact absurd rfl hcall
  | ret => exact absurd rfl hret
  | _ => rfl

theorem nextPc_latched (s : State) (i : Instr) : nextPc s.latched i = nextPc s i := rfl

theorem trunc8_toNat_sub_one (b : Byte) : trunc8 ((b.toNat : Int) - 1) = b - 1 := by
  apply BitVec.eq_of_toNat_eq
  rw [trunc8_toNat]
  bv_omega

/-- Every register after SP's decrement. -/
theorem readReg_decrementSp (s : State) (r : Reg) :
    readReg (writeReg s sp ((readReg s sp).toNat - 1)) r =
      if r = sp then readReg s sp - 1 else readReg s r := by
  split
  · next h => rw [h, readReg_writeReg_same, trunc8_toNat_sub_one]
  · next h => exact readReg_writeReg_other s _ h

/-- CALL's target is read after the push (45_subroutine.md R155). -/
theorem exec_call_pc {a : Byte} {s t : State} (h : exec (.call a) s = .next t)
    (ht : t.faultFree) : t.pc = nextPc s (.call a) := by
  rcases regOperand_cases a with ⟨-, ea⟩ | ⟨-, ea⟩
  · rw [exec_call, execCall, ea, value_bind, pushWith_eq, value_bind, conclude_ok] at h
    cases h
    rw [setPc_pc, readReg_setMem, readReg_decrementSp]
    rfl
  · rw [exec_call, execCall, ea, raise_bind, conclude_error] at h
    cases h
    exact absurd ht (not_faultFree_takeFault _ _)

theorem Effect.pc_eq {s t : State} {i : Instr} (h : Effect s i t) (hcall : i.op ≠ .call) :
    t.pc = nextPc s i := by
  cases h with
  | register r v hop =>
    have hret : i.op ≠ .ret := fun e => by simp [e] at hop
    have hlen : i.op.length = 3 := by rcases hop with e | e | e | e | e <;> rw [e] <;> rfl
    rw [nextPc_of_not_jump s hcall hret, hlen, setPc_pc]
  | call target ha => exact absurd rfl hcall
  | _ => rfl

/-- Every instruction that completes leaves `pc` at `nextPc`. -/
theorem exec_pc {i : Instr} {s t : State} (h : exec i s = .next t) (ht : t.faultFree) :
    t.pc = nextPc s i := by
  rcases exec_next h with he | ⟨c, -, rfl⟩
  · by_cases hcall : i.op = .call
    · cases i <;> cases hcall
      exact exec_call_pc h ht
    · exact he.pc_eq hcall
  · exact absurd ht (not_faultFree_takeFault _ _)

/-! ## The fault of a failed fetch -/

/-- A fetch that fails ends the iteration with the fault it reports. -/
theorem step_of_fetch_error {s : State} {e : FetchFault} {f : FaultRecord} (hs : s.enabled)
    (h : fetch s = .error e) (hf : e.cause.record s.pc e.opcode = f) :
    step s = .next (takeFault s f) := by
  rw [step_enabled hs, fetchExecute, h, ← hf]

/-! ## Everything a step can do -/

/-- The four ends of an iteration, with the state each leaves (40_execution_loop.md R80): the two
stops of the host, a fault entered in the state the iteration began in, and an instruction that
completed and is counted. -/
inductive StepEnd (s : State) : State → Prop where
  | cancelled (h : cancelSignalled s = true) : StepEnd s (stopRun s .cancelled)
  | capped (h : capReached s = true) : StepEnd s (stopRun s .stepCap)
  | faulted (f : FaultRecord) (h : f.pc = s.pc) : StepEnd s (takeFault s f)
  | completed {i : Instr} {t : State} (hcap : capReached s = false) (hi : s.current = some i)
      (he : Effect s.latched i t) (hpc : t.pc = nextPc s i) : StepEnd s (countStep t)

/-- Everything a step can do, and that it is the step of a RUNNING machine. -/
theorem step_end {s u : State} (h : step s = .next u) : s.status = .running ∧ StepEnd s u := by
  obtain ⟨hr, ⟨hc, rfl⟩ | ⟨-, hn, rfl⟩ | ⟨⟨-, -, hn⟩, h⟩⟩ := step_next h
  · exact ⟨hr, .cancelled hc⟩
  · exact ⟨hr, .capped hn⟩
  refine ⟨hr, ?_⟩
  have hs : s.latched.faultFree := faultFree_iff.mpr (by simp [hr])
  rcases fetchExecute_next h with ⟨-, f, hf, -, rfl⟩ | ⟨i, t, hi, ht, hu⟩
  · exact .faulted f hf
  rcases exec_next ht with he | ⟨c, -, rfl⟩
  · have hfree := he.faultFree hs
    rcases hu with ⟨f, hf, -⟩ | ⟨-, rfl⟩
    · exact absurd hf (faultFree_iff.mp hfree f)
    · exact .completed hn hi he ((exec_pc ht hfree).trans (nextPc_latched s i))
  · rcases hu with ⟨f, hf, rfl⟩ | ⟨hnot, -⟩
    · cases hf
      exact .faulted _ rfl
    · exact absurd rfl (hnot _)

/-- A completed instruction of a RUNNING machine leaves it RUNNING, or is HLT. -/
theorem Effect.status_of_running {s t : State} {i : Instr} (h : Effect s.latched i t)
    (hs : s.status = .running) :
    (t.status = .running ∧ t.running = s.running) ∨
      (i = .hlt ∧ t.status = .halted ∧ t.running = false) := by
  rw [← hs]
  exact h.status_cases

/-! ## A RUNNING machine has a step -/

theorem finishIteration_answers (s t : State) : ∃ u, finishIteration s (.next t) = .next u := by
  simp only [finishIteration]
  split <;> exact ⟨_, rfl⟩

theorem fetchExecute_answers (s : State) : ∃ u, fetchExecute s = .next u := by
  unfold fetchExecute
  split
  · exact ⟨_, rfl⟩
  · split
    · exact ⟨_, rfl⟩
    · next t _ _ i _ =>
      obtain ⟨u, hu⟩ := exec_answers i t
      rw [hu]
      exact finishIteration_answers s u

theorem step_answers_of_running {s : State} (hr : s.status = .running) :
    ∃ t, step s = .next t := by
  cases hc : cancelSignalled s with
  | true => exact ⟨_, step_cancelled hr hc⟩
  | false =>
    cases hn : capReached s with
    | true => exact ⟨_, step_capped hr hc hn⟩
    | false => exact step_enabled ⟨hr, hc, hn⟩ ▸ fetchExecute_answers s

end Sys2Proof.Machine

/-! PROOFS. The statements about the loop: its ends, its counts and its program counter
(40_execution_loop.md R97 to R103). -/

namespace Sys2Proof.Machine

/-! ## The ends of the loop -/

/-- Where `running` agrees with the status, a step keeps RUNNING with the flag, or clears the flag
and ends in one of the statuses of 40_execution_loop.md R101, each for its own reason. -/
theorem StepEnd.status_cases {s t : State} (h : StepEnd s t) (hr : s.status = .running)
    (hagree : s.runningAgrees) :
    (t.status = .running ∧ t.running = true) ∨
      (t.running = false ∧
        ((t.status = .halted ∧ s.current = some .hlt) ∨
          (∃ f, t.status = .faulted f) ∨
          (t.status = .stopped .cancelled ∧ cancelSignalled s = true) ∨
          (t.status = .stopped .stepCap ∧ capReached s = true))) := by
  cases h with
  | cancelled h => exact .inr ⟨rfl, .inr (.inr (.inl ⟨rfl, h⟩))⟩
  | capped h => exact .inr ⟨rfl, .inr (.inr (.inr ⟨rfl, h⟩))⟩
  | faulted f h => exact .inr ⟨rfl, .inr (.inl ⟨f, rfl⟩)⟩
  | completed hcap hi he hpc =>
    rcases he.status_of_running hr with ⟨hst, hrun⟩ | ⟨rfl, hst, hrun⟩
    · exact .inl ⟨hst, hrun.trans (hagree.mpr hr)⟩
    · exact .inr ⟨hrun, .inl ⟨hst, hi⟩⟩

theorem cancelSignalled_of_absent {s : State} (h : s.params.cancel = .absent) :
    cancelSignalled s = false := by
  rw [cancelSignalled, h]

theorem capReached_of_none {s : State} (h : s.params.stepCap = none) : capReached s = false := by
  rw [capReached, h]

theorem capReached_of_some {s : State} {n : Nat} (h : s.params.stepCap = some n) :
    capReached s = decide (n ≤ s.steps) := by
  rw [capReached, h]

/-- Settles O8: a RUNNING machine has a step (`step_answers_of_running`); the end of each step is
`StepEnd.status_cases`, whose STOPPED cases need an opt-in that is present. -/
theorem loopEndsInThreeWays : Obligations.LoopEndsInThreeWays := by
  refine ⟨fun s hnone hr => ?steps, fun s t hagree hst => ?ends⟩
  case steps =>
    obtain ⟨t, ht⟩ := step_answers_of_running hr
    exact hnone t ht
  case ends =>
    obtain ⟨hr, hend⟩ := step_end hst
    have hcases := hend.status_cases hr hagree
    refine ⟨hcases, fun hcap hcancel r hstop => ?_⟩
    have hc := cancelSignalled_of_absent hcancel
    have hn := capReached_of_none hcap
    simp [hstop, hc, hn] at hcases

/-! ## The step count -/

/-- Settles O47: of the four ends only a completed instruction counts, and only it ends RUNNING or
HALTED. -/
theorem stepsCountCompletedInstructions : Obligations.StepsCountCompletedInstructions := by
  intro s t hst
  obtain ⟨hr, hend⟩ := step_end hst
  cases hend with
  | cancelled h => exact ⟨by simp, fun _ _ => rfl⟩
  | capped h => exact ⟨by simp, fun _ _ => rfl⟩
  | faulted f h => exact ⟨by simp, fun _ _ => rfl⟩
  | completed hcap hi he hpc =>
    refine ⟨fun _ => congrArg (· + 1) he.steps_eq, fun hnr hnh => ?_⟩
    rcases he.status_of_running hr with ⟨h, -⟩ | ⟨-, h, -⟩
    · exact absurd h hnr
    · exact absurd h hnh

/-! ## The cap -/

/-- No more instructions have completed than the cap allows (40_execution_loop.md R103). -/
def withinCap (s : State) : Prop := ∀ n, s.params.stepCap = some n → s.steps ≤ n

theorem withinCap_of_launch {p : Params} {image : List Byte} {startPc : Nat} {s : State}
    (h : launch p image startPc = .next s) : withinCap s := by
  obtain ⟨-, -, rfl⟩ := launch_next h
  exact fun n _ => Nat.zero_le n

/-- The iteration tests the cap before it runs the instruction that it counts. -/
theorem step_keeps_withinCap {s t : State} (hs : withinCap s) (h : step s = .next t) :
    withinCap t := by
  cases (step_end h).2 with
  | cancelled _ => exact hs
  | capped _ => exact hs
  | faulted _ _ => exact hs
  | completed hcap hi he hpc =>
    intro n hn
    rw [countStep_params, he.params_eq, latched_params] at hn
    rw [capReached_of_some hn, decide_eq_false_iff_not] at hcap
    rw [countStep_steps, he.steps_eq, latched_steps]
    omega

/-- Settles O48: the default is a constant of reset, the stop is `step_capped`, and `withinCap`
holds at every launch and is kept by every step. -/
theorem stepCapLimitsTheRun : Obligations.StepCapLimitsTheRun := by
  refine ⟨rfl, fun s n hr hc hn hle => ?stop, fun t n hreach hn => ?bound⟩
  case stop => exact step_capped hr hc (by rw [capReached_of_some hn]; exact decide_eq_true hle)
  case bound =>
    obtain ⟨p, image, startPc, s, -, hlaunch, hrun⟩ := hreach
    exact reaches_keeps (fun _ _ => step_keeps_withinCap) hrun (withinCap_of_launch hlaunch) n hn

/-! ## The fetch -/

/-- An iteration at `pc` outside memory reports `pc` itself, with no opcode. -/
theorem step_of_pc_outside {s : State} (hs : s.enabled) (h : 256 ≤ s.pc) :
    step s = .next (takeFault s ⟨.outOfBounds, s.pc, none, .address s.pc⟩) :=
  step_of_fetch_error hs (fetch_outside_pc s h) rfl

/-- Settles O19: a clause for each of the four answers of the fetch unit. -/
theorem fetchReadsThreeBytes : Obligations.FetchReadsThreeBytes := by
  refine fun s => ⟨fetch_inside s, fun hs h254 => ?third, fun hs h255 => ?second,
    step_of_pc_outside⟩
  case third =>
    exact step_of_fetch_error hs (fetch_outside_b s (by omega) (by omega)) (by rw [h254]; rfl)
  case second =>
    exact step_of_fetch_error hs (fetch_outside_a s (by omega) (by omega)) (by rw [h255]; rfl)

/-! ## The program counter -/

/-- Only an instruction that completed moves `pc`. -/
theorem StepEnd.pc_cases {s t : State} (h : StepEnd s t) :
    t.pc = s.pc ∨ ∃ i, s.current = some i ∧ t.pc = nextPc s i := by
  cases h with
  | completed hcap hi he hpc => exact .inr ⟨_, hi, hpc⟩
  | _ => exact .inl rfl

/-- A fault leaves `pc` (40_execution_loop.md R98). -/
theorem StepEnd.pc_of_faulted {s t : State} {f : FaultRecord} (h : StepEnd s t)
    (hr : s.status = .running) (hf : t.status = .faulted f) : t.pc = s.pc := by
  cases h with
  | completed hcap hi he hpc =>
    have hfree : s.latched.faultFree := faultFree_iff.mpr (by simp [hr])
    exact absurd hf (faultFree_iff.mp (he.faultFree hfree) f)
  | _ => rfl

/-- Settles O45: `exec_pc` for the instruction that completes; `exec_next` and `StepEnd` for the
fault, of a handler and of a whole iteration. -/
theorem programCounterEffect : Obligations.ProgramCounterEffect := by
  refine ⟨fun i s t h => ⟨fun ht => ?completes, fun hs ht => ?faults⟩,
    fun s t f hst hf => ?steps⟩
  case completes =>
    rw [exec_pc h ht]
    cases i <;> rfl
  case faults =>
    rcases exec_next h with he | ⟨c, -, rfl⟩
    · exact absurd (he.faultFree hs) ht
    · exact takeFault_pc _ _
  case steps =>
    obtain ⟨hr, hend⟩ := step_end hst
    exact hend.pc_of_faulted hr hf

/-- An enabled machine whose step meets no fault completed the instruction at `pc`. -/
theorem StepEnd.pc_of_faultFree {s t : State} {i : Instr} (h : StepEnd s t) (hs : s.enabled)
    (hi : s.current = some i) (ht : t.faultFree) : t.pc = nextPc s i := by
  obtain ⟨-, hc, hn⟩ := hs
  cases h with
  | cancelled h => simp [hc] at h
  | capped h => simp [hn] at h
  | faulted f h => exact absurd ht (not_faultFree_takeFault s f)
  | completed hcap hi' he hpc =>
    cases hi.symm.trans hi'
    exact hpc

/-- Settles O46: the advance from 253 is `nextPc`, the fault after it is `step_of_pc_outside`; an
instruction that is no jump only raises `pc`. -/
theorem programCounterIsNeverReduced : Obligations.ProgramCounterIsNeverReduced := by
  refine ⟨fun s t i hpc hi hlen hs hst ht => ?advance, fun s t hst hlt => ?lowered⟩
  case advance =>
    have hcall : i.op ≠ .call := fun e => absurd (e ▸ hlen) (by decide)
    have hret : i.op ≠ .ret := fun e => absurd (e ▸ hlen) (by decide)
    have hpc' : t.pc = 256 := by
      rw [(step_end hst).2.pc_of_faultFree hs hi ht, nextPc_of_not_jump s hcall hret, hpc, hlen]
    refine ⟨hpc', fun hen => ?_⟩
    have hfault := step_of_pc_outside hen hpc'.ge
    rw [hpc'] at hfault
    exact hfault
  case lowered =>
    rcases (step_end hst).2.pc_cases with hpc | ⟨i, hi, hpc⟩
    · omega
    by_cases hcall : i.op = .call
    · cases i <;> cases hcall
      exact .inl ⟨_, hi⟩
    by_cases hret : i.op = .ret
    · cases i <;> cases hret
      exact .inr hi
    rw [nextPc_of_not_jump s hcall hret] at hpc
    omega

end Sys2Proof.Machine

/-! PROOFS. The statements about the decoder's outputs and the register checks
(40_execution_loop.md R87, R88, R91). -/

namespace Sys2Proof.Machine

/-! ## The decoder's outputs -/

/-- Settles O13: under an admissible map the class of a table byte is its operand count, and the
advance is that of `nextPc`. -/
theorem classGivesCountAndLength : Obligations.ClassGivesCountAndLength := by
  intro m x op d hm hd
  obtain ⟨-, o, hl, rfl⟩ := decodeOp_ok hd
  obtain ⟨ho, rfl⟩ := lookup_some hl
  obtain ⟨-, hcount, -⟩ := admissible_iff.mp hm
  have hclass : (opClass (m.byte o)).toNat = o.operandCount := hcount o ho
  have hlen : (opClass (m.byte o)).toNat + 1 = o.length := congrArg (· + 1) hclass
  refine ⟨rfl, hclass.symm, rfl, hlen, fun h => ?call, fun h => ?ret,
    fun a b s t hcall hret hexec ht => ?advance⟩
  case call => exact hlen.trans (congrArg Op.length h)
  case ret => exact hlen.trans (congrArg Op.length h)
  case advance =>
    rw [← op_withOperands o a b] at hcall hret
    rw [exec_pc hexec ht, nextPc_of_not_jump s hcall hret, op_withOperands]
    exact congrArg (s.pc + ·) hlen.symm

/-- Settles O14: the selection is the decoder's table `Op.aluOp?`; the bytes of the default map are
read off for the four instructions that select an operation. -/
theorem decoderSelectsTheAluOperation : Obligations.DecoderSelectsTheAluOperation := by
  refine ⟨fun m x op d hd => ?selects, fun x op d k hd hk => ?bits⟩
  case selects =>
    obtain ⟨-, o, -, rfl⟩ := decodeOp_ok hd
    exact ⟨congrArg Op.aluOp?, congrArg Op.aluOp?, congrArg Op.aluOp?, congrArg Op.aluOp?⟩
  case bits =>
    obtain ⟨-, o, hl, rfl⟩ := decodeOp_ok hd
    obtain ⟨-, rfl⟩ := lookup_some hl
    cases o <;> cases hk <;> rfl

/-! ## The register checks -/

/-- A handler whose next check is a register operand of 8 or more ends there, whatever it would have
gone on to do. -/
theorem conclude_regOperand_illegal (s : State) {r : Byte} (hr : 8 ≤ r.toNat)
    (k : Reg → Except FaultCause State) :
    conclude s (regOperand r >>= k) = .next (s.faultWith .illegalRegister (.operand r)) := by
  rw [regOperand_illegal hr]
  rfl

/-- The ALU unit checks `b` once `a` has passed. -/
theorem conclude_aluApply_illegal_b (op : AluOp) (s : State) {a b : Byte} (ha : a.toNat < 8)
    (hb : 8 ≤ b.toNat) :
    conclude s (aluApply op a b s) = .next (s.faultWith .illegalRegister (.operand b)) := by
  rw [aluApply, regOperand_legal ha, value_bind]
  exact conclude_regOperand_illegal s hb _

theorem exec_ret_completes (s : State) :
    exec .ret s = .next (setPc (incSp s) (Memory.read s.mem (readReg s sp).toNat).toNat) := by
  rw [exec_ret, execRet, topOfStack_eq, value_bind, conclude_ok]

theorem exec_ldi_legal (s : State) {a : Byte} (b : Byte) (ha : a.toNat < 8) :
    exec (.ldi a b) s = .next (setPc (writeReg s (regOf a) (immOperand b)) (s.pc + 3)) := by
  rw [exec_ldi, execLdi, regOperand_legal ha, value_bind, conclude_ok]

/-- Settles O22: every handler that uses `a` begins with its check, the ALU unit goes on to `b`, and
HLT, RET and an LDI with a legal `a` complete whatever the other bytes hold. -/
theorem registerIndicesAreChecked : Obligations.RegisterIndicesAreChecked := by
  refine fun s a b => ⟨fun ha => ?checkA, fun ha hb => ?checkB,
    fun hs => ⟨?hlt, ?ret, fun ha => ?ldi⟩⟩
  case checkA =>
    simp only [List.forall_mem_cons]
    refine ⟨?_, ?_, ?_, ?_, ?_, ?_, ?_, ?_, ?_, List.forall_mem_nil _⟩ <;>
      exact conclude_regOperand_illegal s ha _
  case checkB =>
    simp only [List.forall_mem_cons]
    exact ⟨conclude_aluApply_illegal_b .add s ha hb, conclude_aluApply_illegal_b .mul s ha hb,
      conclude_aluApply_illegal_b .sub s ha hb, conclude_aluApply_illegal_b .div s ha hb,
      List.forall_mem_nil _⟩
  case hlt => exact ⟨_, exec_hlt s, rfl⟩
  case ret => exact ⟨_, exec_ret_completes s, hs⟩
  case ldi => exact ⟨_, exec_ldi_legal s b ha, hs⟩

end Sys2Proof.Machine

/-! PROOFS. The statements about LDI and PRN (41_load_and_print.md R110, R113). -/

namespace Sys2Proof.Machine

/-- An immediate is already a byte, so the register write does not change it. -/
@[simp] theorem writeReg_immOperand (s : State) (r : Reg) (b : Byte) :
    writeReg s r (immOperand b) = { s with regs := s.regs.set r b } := by
  rw [writeReg, immOperand, trunc8_byte]

theorem exec_ldi_illegal (s : State) {a : Byte} (b : Byte) (ha : 8 ≤ a.toNat) :
    exec (.ldi a b) s = .next (s.faultWith .illegalRegister (.operand a)) := by
  rw [exec_ldi, execLdi, conclude_regOperand_illegal s ha]

theorem exec_prn_legal (s : State) {a : Byte} (ha : a.toNat < 8) :
    exec (.prn a) s = .next (setPc (emit s (readReg s (regOf a))) (s.pc + 2)) := by
  rw [exec_prn, execPrn, regOperand_legal ha, value_bind, conclude_ok]

theorem exec_prn_illegal (s : State) {a : Byte} (ha : 8 ≤ a.toNat) :
    exec (.prn a) s = .next (s.faultWith .illegalRegister (.operand a)) := by
  rw [exec_prn, execPrn, conclude_regOperand_illegal s ha]

/-- Settles O26: a legal `a` lets the write through with the immediate unreduced; an illegal one ends
the handler at its first check. -/
theorem ldiResult : Obligations.LdiResult := by
  refine fun a b s => ⟨fun m => ?encoding, fun ha => ?legal, fun ha => ?illegal⟩
  case encoding => rfl
  case legal => rw [exec_ldi_legal s b ha, writeReg_immOperand, setPc]
  case illegal => exact exec_ldi_illegal s b ha

/-- Settles O27: a legal `a` lets the one output event through; an illegal one ends the handler at its
first check. -/
theorem prnResult : Obligations.PrnResult := by
  refine fun a s => ⟨fun m => ?encoding, fun ha => ?legal, fun ha => ?illegal⟩
  case encoding => rfl
  case legal => rw [exec_prn_legal s ha, emit, setPc]
  case illegal => exact exec_prn_illegal s ha

end Sys2Proof.Machine

/-! PROOFS. The four ALU instructions (42_alu.md R122, R125, R127, R129, R131): the byte each
operation stores, how each instruction ends, and the table rows that need EXT_ALU. -/

namespace Sys2Proof

/-! ## The rows that need EXT_ALU -/

theorem mem_table_of_mem_base {o : Op} (h : o ∈ Op.table false) : o ∈ Op.table true :=
  List.mem_append_left _ (by simpa [Op.table] using h)

/-- The byte of a row that only EXT_ALU adds is illegal without it: the extended map is injective, so
no base row has that byte, and none of its bytes has class 3 (30_encoding.md R67, R68). -/
theorem decodeOp_of_only_extAlu {m : OpcodeMap} (hm : m.admissible true = true) {o : Op}
    (hext : o ∈ Op.table true) (hbase : o ∉ Op.table false) :
    decodeOp m false (m.byte o) = .error (.notInTable (m.byte o)) := by
  obtain ⟨hinj, -, hclass⟩ := admissible_iff.mp hm
  refine decodeOp_of_lookup_none (hclass o hext) (lookup_none.mpr fun o' ho' hbyte => hbase ?_)
  exact List.inj_on_of_nodup_map hinj (mem_table_of_mem_base ho') hext hbyte ▸ ho'

end Sys2Proof

namespace Sys2Proof.Machine

/-! ## The byte an operation stores -/

/-- The operation raises nothing, and its result is `v` after the reduction of the register write. -/
def AluStores (op : AluOp) (x y v : Byte) : Prop := ∃ r, alu op x y = .ok r ∧ trunc8 r = v

theorem AluStores.toNat_eq_mod {op : AluOp} {x y : Byte} {n : Nat}
    (h : AluStores op x y (BitVec.ofNat 8 n)) :
    ∃ r, alu op x y = .ok r ∧ (trunc8 r).toNat = n % 256 := by
  obtain ⟨r, hr, hv⟩ := h
  exact ⟨r, hr, by rw [hv, BitVec.toNat_ofNat]⟩

theorem AluStores.toNat_eq {op : AluOp} {x y : Byte} {n : Nat}
    (h : AluStores op x y (BitVec.ofNat 8 n)) (hn : n < 256) :
    ∃ r, alu op x y = .ok r ∧ (trunc8 r).toNat = n := by
  simpa only [Nat.mod_eq_of_lt hn] using h.toNat_eq_mod

theorem trunc8_natCast (n : Nat) : trunc8 (n : Int) = BitVec.ofNat 8 n := BitVec.ofInt_natCast 8 n

/-- A negative difference of two bytes is reduced by adding 256 once. -/
theorem trunc8_sub (x y : Byte) :
    trunc8 ((x.toNat : Int) - y.toNat) =
      BitVec.ofNat 8
        (if y.toNat ≤ x.toNat then x.toNat - y.toNat else x.toNat + 256 - y.toNat) := by
  apply BitVec.eq_of_toNat_eq
  rw [trunc8_toNat, BitVec.toNat_ofNat]
  have hx := x.isLt
  have hy := y.isLt
  split <;> omega

theorem alu_add_stores (x y : Byte) :
    AluStores .add x y (BitVec.ofNat 8 (x.toNat + y.toNat)) :=
  ⟨_, rfl, trunc8_natCast _⟩

theorem alu_sub_stores (x y : Byte) :
    AluStores .sub x y
      (BitVec.ofNat 8
        (if y.toNat ≤ x.toNat then x.toNat - y.toNat else x.toNat + 256 - y.toNat)) :=
  ⟨_, rfl, trunc8_sub x y⟩

theorem alu_mul_stores (x y : Byte) :
    AluStores .mul x y (BitVec.ofNat 8 (x.toNat * y.toNat)) :=
  ⟨_, rfl, trunc8_natCast _⟩

theorem alu_div_stores (x : Byte) {y : Byte} (hy : y ≠ 0) :
    AluStores .div x y (BitVec.ofNat 8 (x.toNat / y.toNat)) :=
  ⟨_, alu_div_nonzero x hy, trunc8_natCast _⟩

/-- Settles O36: the stored byte of each operation, read as a number; a difference (plus 256 when it
is negative) and a quotient are below 256 already. -/
theorem arithmeticLaws : Obligations.ArithmeticLaws := by
  refine fun x y => ⟨(alu_add_stores x y).toNat_eq_mod, (alu_sub_stores x y).toNat_eq ?difference,
    (alu_mul_stores x y).toNat_eq_mod, fun hy => (alu_div_stores x hy).toNat_eq ?quotient,
    fun hy => ?byZero⟩
  case difference =>
    have hx := x.isLt
    split <;> omega
  case quotient => exact (Nat.div_le_self _ _).trans_lt x.isLt
  case byZero => rw [hy, alu_div_zero]

/-! ## How an ALU instruction ends -/

theorem conclude_aluApply_stores {op : AluOp} {a b v : Byte} (s : State) (ha : a.toNat < 8)
    (hb : b.toNat < 8) (h : AluStores op (readReg s (regOf a)) (readReg s (regOf b)) v) :
    conclude s (aluApply op a b s) =
      .next { s with regs := s.regs.set (regOf a) v, pc := s.pc + 3 } := by
  obtain ⟨r, hr, rfl⟩ := h
  rw [aluApply_legal op s ha hb, hr, value_bind, conclude_ok, writeReg, setPc]

theorem conclude_aluApply_illegal_a (op : AluOp) (s : State) {a : Byte} (b : Byte)
    (ha : 8 ≤ a.toNat) :
    conclude s (aluApply op a b s) = .next (s.faultWith .illegalRegister (.operand a)) :=
  conclude_regOperand_illegal s ha _

theorem conclude_aluApply_div_zero (s : State) {a b : Byte} (ha : a.toNat < 8) (hb : b.toNat < 8)
    (hzero : readReg s (regOf b) = 0) :
    conclude s (aluApply .div a b s) = .next (s.faultWith .divideByZero .none) := by
  rw [aluApply_legal .div s ha hb, hzero, alu_div_zero, raise_bind, conclude_error]
  rfl

/-! ## The four instructions -/

/-- Settles O28: legal operands store the ALU's byte; an illegal one ends the handler at the check of
`a`, and then of `b`. -/
theorem addAndMulResult : Obligations.AddAndMulResult := by
  refine fun a b s => ⟨fun m => ⟨rfl, rfl⟩, fun ha hb => ?legal, fun ha => ?illegalA,
    fun ha hb => ?illegalB⟩
  all_goals rw [exec_add, execAdd, exec_mul, execMul]
  case legal =>
    exact ⟨conclude_aluApply_stores s ha hb (alu_add_stores _ _),
      conclude_aluApply_stores s ha hb (alu_mul_stores _ _)⟩
  case illegalA =>
    exact ⟨conclude_aluApply_illegal_a .add s b ha, conclude_aluApply_illegal_a .mul s b ha⟩
  case illegalB =>
    exact ⟨conclude_aluApply_illegal_b .add s ha hb, conclude_aluApply_illegal_b .mul s ha hb⟩

/-- Settles O29: SUB's row is one that only EXT_ALU adds; legal operands store the wrapped difference,
and an illegal one ends the handler at its check. -/
theorem subResult : Obligations.SubResult := by
  refine ⟨fun m hm => decodeOp_of_only_extAlu (o := .sub) hm (by decide) (by decide),
    fun a b s => ⟨fun m => rfl, fun ha hb => ?legal, fun ha => ?illegalA, fun ha hb => ?illegalB⟩⟩
  all_goals rw [exec_sub, execSub]
  case legal => exact conclude_aluApply_stores s ha hb (alu_sub_stores _ _)
  case illegalA => exact conclude_aluApply_illegal_a .sub s b ha
  case illegalB => exact conclude_aluApply_illegal_b .sub s ha hb

/-- Settles O30: DIV's row is one that only EXT_ALU adds; legal operands store the quotient, or end in
DivideByZero for a divisor of 0, and an illegal one ends the handler at its check. -/
theorem divResult : Obligations.DivResult := by
  refine ⟨fun m hm => decodeOp_of_only_extAlu (o := .div) hm (by decide) (by decide),
    fun a b s => ⟨fun m => rfl, fun ha hb hne => ?quotient, fun ha hb hzero => ?byZero,
      fun ha => ?illegalA, fun ha hb => ?illegalB⟩⟩
  all_goals rw [exec_div, execDiv]
  case quotient => exact conclude_aluApply_stores s ha hb (alu_div_stores _ hne)
  case byZero => exact conclude_aluApply_div_zero s ha hb hzero
  case illegalA => exact conclude_aluApply_illegal_a .div s b ha
  case illegalB => exact conclude_aluApply_illegal_b .div s ha hb

end Sys2Proof.Machine

/-! PROOFS. HLT and the ends of a run (43_halt.md R140, R141, 60_exceptions.md R179). -/

namespace Sys2Proof.Machine

/-! ## HLT -/

theorem exec_hlt_completes (s : State) : exec .hlt s = .next (haltRun (setPc s (s.pc + 1))) := by
  rw [exec_hlt, execHlt, conclude_ok]

/-- Where the three fetch reads leave memory, the iteration ends in OutOfBounds, whatever the bytes
at `pc` are. -/
theorem step_outOfBounds {s : State} (hs : s.enabled) (hpc : 254 ≤ s.pc) :
    ∃ f, f.kind = .outOfBounds ∧ step s = .next (takeFault s f) := by
  obtain ⟨-, third, second, first⟩ := fetchReadsThreeBytes s
  have hcases : s.pc = 254 ∨ s.pc = 255 ∨ 256 ≤ s.pc := by omega
  rcases hcases with h254 | h255 | houtside
  · exact ⟨_, rfl, third hs h254⟩
  · exact ⟨_, rfl, second hs h255⟩
  · exact ⟨_, rfl, first hs houtside⟩

/-- Settles O31: the handler always completes (`exec_hlt_completes`), but at 254 and 255 the fetch
faults before it runs (`step_outOfBounds`). -/
theorem hltResult : Obligations.HltResult := by
  refine ⟨fun m => ?encoding, fun s => ?effect, fun s t hs hpc hst => ?fetchFault⟩
  case encoding => rfl
  case effect => rw [exec_hlt_completes, haltRun, leaveRunning, setPc]
  case fetchFault =>
    obtain ⟨f, hkind, hfault⟩ := step_outOfBounds hs (by omega)
    cases hfault.symm.trans hst
    exact ⟨f, takeFault_status s f, hkind⟩

/-! ## The ends of a run are terminal -/

theorem step_ne_next_of_ended {s : State} (hs : s.ended) (t : State) : step s ≠ .next t :=
  fun h => hs (step_next h).1

/-- Being the ended state itself is what every step of the run keeps, there being none. -/
theorem eq_of_reaches_of_ended {s t : State} (hs : s.ended) (h : Reaches s t) : t = s := by
  refine reaches_keeps (P := (· = s)) (fun a b (ha : a = s) hstep => ?_) h rfl
  rw [ha] at hstep
  exact absurd hstep (step_ne_next_of_ended hs b)

/-- Settles O50: only a RUNNING machine steps, so a run from an ended state stays at its start. -/
theorem endedMachinesStayEnded : Obligations.EndedMachinesStayEnded :=
  fun _ hs => ⟨step_ne_next_of_ended hs, fun _ => eq_of_reaches_of_ended hs⟩

end Sys2Proof.Machine

/-! PROOFS. PUSH and POP (44_stack.md R145, R148). -/

namespace Sys2Proof.Machine

/-! ## The stack pointer's steps, reduced modulo 256 -/

theorem writeReg_sp_sub_one (s : State) :
    writeReg s sp ((readReg s sp).toNat - 1) =
      { s with regs := s.regs.set sp (readReg s sp - 1) } := by
  rw [writeReg, trunc8_toNat_sub_one]

theorem trunc8_toNat_add_one (b : Byte) : trunc8 ((b.toNat : Int) + 1) = b + 1 := by
  apply BitVec.eq_of_toNat_eq
  rw [trunc8_toNat]
  bv_omega

theorem incSp_eq (s : State) :
    incSp s = { s with regs := s.regs.set sp (readReg s sp + 1) } := by
  rw [incSp, writeReg, trunc8_toNat_add_one]

/-- A byte loaded into a register is not changed by the register write. -/
theorem writeReg_byte (s : State) (r : Reg) (b : Byte) :
    writeReg s r b.toNat = { s with regs := s.regs.set r b } := by
  rw [writeReg, trunc8_byte]

/-! ## How PUSH and POP end -/

theorem exec_push_legal (s : State) {a : Byte} (ha : a.toNat < 8) :
    exec (.push a) s = .next (setPc (setMem (writeReg s sp ((readReg s sp).toNat - 1))
      (Memory.write s.mem (readReg s sp - 1).toNat
        (if regOf a = sp then readReg s sp - 1 else readReg s (regOf a)))) (s.pc + 2)) := by
  rw [exec_push, execPush, regOperand_legal ha, value_bind, pushWith_eq, value_bind, conclude_ok,
    trunc8_toNat_sub_one, readReg_decrementSp]

theorem exec_push_illegal (s : State) {a : Byte} (ha : 8 ≤ a.toNat) :
    exec (.push a) s = .next (s.faultWith .illegalRegister (.operand a)) := by
  rw [exec_push, execPush, conclude_regOperand_illegal s ha]

theorem exec_pop_legal (s : State) {a : Byte} (ha : a.toNat < 8) :
    exec (.pop a) s = .next (setPc (incSp
      (writeReg s (regOf a) (Memory.read s.mem (readReg s sp).toNat).toNat)) (s.pc + 2)) := by
  rw [exec_pop, execPop, regOperand_legal ha, value_bind, topOfStack_eq, value_bind, conclude_ok]

theorem exec_pop_illegal (s : State) {a : Byte} (ha : 8 ≤ a.toNat) :
    exec (.pop a) s = .next (s.faultWith .illegalRegister (.operand a)) := by
  rw [exec_pop, execPop, conclude_regOperand_illegal s ha]

/-- Settles O32: the decremented SP is written before `R[a]` is read (`exec_push_legal`); an illegal
`a` ends the handler at its first check. -/
theorem pushResult : Obligations.PushResult := by
  refine fun a s => ⟨fun m => ?encoding, fun ha => ?legal, fun ha => ?illegal⟩
  case encoding => rfl
  case legal => rw [exec_push_legal s ha, writeReg_sp_sub_one, setMem, setPc]
  case illegal => exact exec_push_illegal s ha

/-- Settles O33: the increment reads SP after the load, which leaves it alone unless `a` is SP itself,
and then the incremented byte replaces the loaded one; an illegal `a` ends the handler at its first
check. -/
theorem popResult : Obligations.PopResult := by
  refine fun a s => ⟨fun m => ?encoding, fun ha hne => ?other, fun ha heq => ?stackPointer,
    fun ha => ?illegal⟩
  case encoding => rfl
  case other =>
    rw [exec_pop_legal s ha, incSp_eq, readReg_writeReg_other s _ hne.symm, writeReg_byte, setPc]
  case stackPointer =>
    rw [exec_pop_legal s ha, heq, incSp_eq, readReg_writeReg_same, trunc8_byte, writeReg_byte, setPc,
      Vector.set_set]
  case illegal => exact exec_pop_illegal s ha

end Sys2Proof.Machine

/-! PROOFS. CALL and RET (45_subroutine.md R155, R158). -/

namespace Sys2Proof.Machine

/-! ## The return address -/

/-- Below 256 the return address is stored exactly (45_subroutine.md R156). -/
theorem returnByte_toNat {s : State} (hpc : s.pc + 2 < 256) : (returnByte s).toNat = s.pc + 2 := by
  rw [returnByte, trunc8_toNat]
  omega

/-! ## How CALL ends -/

theorem exec_call_legal (s : State) {a : Byte} (ha : a.toNat < 8) :
    exec (.call a) s = .next (setPc (setMem (writeReg s sp ((readReg s sp).toNat - 1))
      (Memory.write s.mem (readReg s sp - 1).toNat (returnByte s)))
      (if regOf a = sp then readReg s sp - 1 else readReg s (regOf a)).toNat) := by
  rw [exec_call, execCall, regOperand_legal ha, value_bind, pushWith_eq, value_bind, conclude_ok,
    readReg_setMem, readReg_decrementSp, trunc8_toNat_sub_one]

theorem exec_call_illegal (s : State) {a : Byte} (ha : 8 ≤ a.toNat) :
    exec (.call a) s = .next (s.faultWith .illegalRegister (.operand a)) := by
  rw [exec_call, execCall, conclude_regOperand_illegal s ha]

/-- Settles O34: the pushed byte is the return address, which fits a byte after a successful fetch
(`returnByte_toNat`), and the target is read from the registers with SP decremented
(`exec_call_legal`); an illegal `a` ends the handler at its first check. -/
theorem callResult : Obligations.CallResult := by
  refine fun a s => ⟨fun m => ?encoding, fun ha hpc => ⟨returnByte s, returnByte_toNat hpc, ?legal⟩,
    fun ha => ?illegal⟩
  case encoding => rfl
  case legal => rw [exec_call_legal s ha, writeReg_sp_sub_one, setMem, setPc]
  case illegal => exact exec_call_illegal s ha

/-- Settles O35: the handler always completes (`exec_ret_completes`), its top-of-stack address being a
byte, and SP takes the one increment of `incSp_eq`. -/
theorem retResult : Obligations.RetResult := by
  refine ⟨fun m => ?encoding, fun s => ?effect⟩
  case encoding => rfl
  case effect => rw [exec_ret_completes, incSp_eq, setPc]

end Sys2Proof.Machine

/-! PROOFS. The faults of an iteration: the first of the priority list, its precision, and
DivideByZero (60_exceptions.md R171, R175, R177). -/

namespace Sys2Proof.Machine

/-! ## The fault of a handler -/

/-- Lines 5 to 7 of the priority list (60_exceptions.md R177), for the instruction `o` with latched
bytes `a` and `b`: the register checks in their order, then the divisor. -/
def operandFault (s : State) (o : Op) (a b : Byte) : Option FaultRecord :=
  if usesA o = true ∧ 8 ≤ a.toNat then some ⟨.illegalRegister, s.pc, some s.ir, .operand a⟩
  else if usesB o = true ∧ 8 ≤ b.toNat then some ⟨.illegalRegister, s.pc, some s.ir, .operand b⟩
  else if o = .div ∧ readReg s (regOf b) = 0 then some ⟨.divideByZero, s.pc, some s.ir, .none⟩
  else none

theorem usesA_of_usesB {o : Op} (h : usesB o = true) : usesA o = true := by
  cases o <;> trivial

theorem exec_withOperands_illegal_a (s : State) {o : Op} {a : Byte} (b : Byte)
    (ho : usesA o = true) (ha : 8 ≤ a.toNat) :
    exec (o.withOperands a b) s = .next (s.faultWith .illegalRegister (.operand a)) := by
  obtain ⟨checkA, -, -⟩ := registerIndicesAreChecked s a b
  refine checkA ha _ ?_
  cases o <;> simp_all [usesA, Op.withOperands]

theorem exec_withOperands_illegal_b (s : State) {o : Op} {a b : Byte}
    (ho : usesB o = true) (ha : a.toNat < 8) (hb : 8 ≤ b.toNat) :
    exec (o.withOperands a b) s = .next (s.faultWith .illegalRegister (.operand b)) := by
  obtain ⟨-, checkB, -⟩ := registerIndicesAreChecked s a b
  refine checkB ha hb _ ?_
  cases o <;> simp_all [usesB, Op.withOperands]

theorem exec_div_zero (s : State) {a b : Byte} (ha : a.toNat < 8) (hb : b.toNat < 8)
    (hzero : readReg s (regOf b) = 0) :
    exec (.div a b) s = .next (s.faultWith .divideByZero .none) := by
  rw [exec_div, execDiv, conclude_aluApply_div_zero s ha hb hzero]

/-- An instruction that passes the last three lines of the priority list completes. -/
theorem exec_withOperands_completes {s : State} {o : Op} {a b : Byte} (hs : s.faultFree)
    (ha : usesA o = true → a.toNat < 8) (hb : usesB o = true → b.toNat < 8)
    (hdiv : o = .div → readReg s (regOf b) ≠ 0) :
    ∃ t, exec (o.withOperands a b) s = .next t ∧ t.faultFree := by
  cases o with
  | hlt => exact ⟨_, exec_hlt_completes s, rfl⟩
  | ret => exact ⟨_, exec_ret_completes s, hs⟩
  | push => exact ⟨_, exec_push_legal s (ha rfl), hs⟩
  | pop => exact ⟨_, exec_pop_legal s (ha rfl), hs⟩
  | prn => exact ⟨_, exec_prn_legal s (ha rfl), hs⟩
  | call => exact ⟨_, exec_call_legal s (ha rfl), hs⟩
  | ldi => exact ⟨_, exec_ldi_legal s b (ha rfl), hs⟩
  | add => exact ⟨_, conclude_aluApply_stores s (ha rfl) (hb rfl) (alu_add_stores _ _), hs⟩
  | mul => exact ⟨_, conclude_aluApply_stores s (ha rfl) (hb rfl) (alu_mul_stores _ _), hs⟩
  | sub => exact ⟨_, conclude_aluApply_stores s (ha rfl) (hb rfl) (alu_sub_stores _ _), hs⟩
  | div =>
    exact ⟨_, conclude_aluApply_stores s (ha rfl) (hb rfl) (alu_div_stores _ (hdiv rfl)), hs⟩

/-- The record after a handler is the first of the last three lines that holds, or none. -/
theorem exec_withOperands_faultRecord? {s t : State} {o : Op} {a b : Byte} (hs : s.faultFree)
    (h : exec (o.withOperands a b) s = .next t) : t.faultRecord? = operandFault s o a b := by
  unfold operandFault
  split
  · next hA =>
    cases (exec_withOperands_illegal_a s b hA.1 hA.2).symm.trans h
    rfl
  next hA =>
  have ha : usesA o = true → a.toNat < 8 := fun ho => Nat.lt_of_not_le fun hle => hA ⟨ho, hle⟩
  split
  · next hB =>
    obtain ⟨ho, hb⟩ := hB
    cases (exec_withOperands_illegal_b s ho (ha (usesA_of_usesB ho)) hb).symm.trans h
    rfl
  next hB =>
  have hb : usesB o = true → b.toNat < 8 := fun ho => Nat.lt_of_not_le fun hle => hB ⟨ho, hle⟩
  split
  · next hD =>
    obtain ⟨rfl, hzero⟩ := hD
    cases (exec_div_zero s (ha rfl) (hb rfl) hzero).symm.trans h
    rfl
  next hD =>
  obtain ⟨u, hu, hfree⟩ := exec_withOperands_completes hs ha hb fun ho hzero => hD ⟨ho, hzero⟩
  cases hu.symm.trans h
  exact hfree

/-- Only the last line reports DivideByZero. -/
theorem eq_div_of_operandFault {s : State} {o : Op} {a b : Byte} {f : FaultRecord}
    (h : operandFault s o a b = some f) (hk : f.kind = .divideByZero) : o = .div := by
  unfold operandFault at h
  split at h
  · cases h
    cases hk
  split at h
  · cases h
    cases hk
  split at h
  · next hD => exact hD.1
  · cases h

/-! ## The fault of an iteration -/

theorem latched_faultFree {s : State} (hr : s.status = .running) : s.latched.faultFree :=
  faultFree_iff.mpr (by simp [hr])

theorem faultRecord?_of_status {s : State} {f : FaultRecord} (h : s.status = .faulted f) :
    s.faultRecord? = some f := by
  rw [State.faultRecord?, h]

/-- The end of an iteration passes the handler's fault on. -/
theorem finishIteration_faultRecord? {s t u : State}
    (h : finishIteration s (.next t) = .next u) : u.faultRecord? = t.faultRecord? := by
  rcases finishIteration_next h with ⟨f, hf, rfl⟩ | ⟨-, rfl⟩
  · exact (faultRecord?_of_status hf).symm
  · rfl

theorem faultRecord?_of_step_takeFault {s t : State} {f : FaultRecord} (h : step s = .next t)
    (hf : step s = .next (takeFault s f)) : t.faultRecord? = some f := by
  cases hf.symm.trans h
  rfl

/-- A legal opcode in an enabled machine brings the iteration to its handler's fault. -/
theorem step_faultRecord?_of_lookup_some {s t : State} {o : Op} (hs : s.enabled)
    (h : step s = .next t) (hpc : s.pc + 2 < 256) (hc : opClass (Memory.read s.mem s.pc) ≠ 3#2)
    (hl : lookup s.params.opcodeMap s.params.extAlu (Memory.read s.mem s.pc) = some o) :
    t.faultRecord? = operandFault s.latched o (Memory.read s.mem (s.pc + 1))
      (Memory.read s.mem (s.pc + 2)) := by
  have hcurrent := current_eq_some.mpr ⟨hpc, by rw [decode, decodeOp_of_lookup_some hc hl]⟩
  rw [step_enabled hs, fetchExecute_current hcurrent] at h
  obtain ⟨u, hu⟩ := exec_answers _ s.latched
  rw [hu] at h
  obtain ⟨hr, -, -⟩ := hs
  rw [finishIteration_faultRecord? h, exec_withOperands_faultRecord? (latched_faultFree hr) hu]

/-- The iteration of an enabled machine meets the conditions of the list in the list's order: the
three fetch reads, the two tests of the opcode byte, and the handler's own. -/
theorem step_faultRecord?_of_enabled {s t : State} (hs : s.enabled) (h : step s = .next t) :
    t.faultRecord? = firstFault s := by
  unfold firstFault
  dsimp only
  split
  · next h0 => exact faultRecord?_of_step_takeFault h (step_of_pc_outside hs h0)
  split
  · next h0 h1 =>
    have hfetch := fetch_outside_a s (Nat.lt_of_not_le h0) h1
    exact faultRecord?_of_step_takeFault h (step_of_fetch_error hs hfetch rfl)
  split
  · next h1 h2 =>
    have hfetch := fetch_outside_b s (Nat.lt_of_not_le h1) h2
    exact faultRecord?_of_step_takeFault h (step_of_fetch_error hs hfetch rfl)
  next h2 =>
  have hpc : s.pc + 2 < 256 := Nat.lt_of_not_le h2
  split
  · next hc =>
    have hfault := fetchExecute_illegal hpc (decodeOp_of_class_three _ _ hc)
    exact faultRecord?_of_step_takeFault h ((step_enabled hs).trans hfault)
  next hc =>
  split
  · next hl =>
    have hfault := fetchExecute_illegal hpc (decodeOp_of_lookup_none hc hl)
    exact faultRecord?_of_step_takeFault h ((step_enabled hs).trans hfault)
  · next o hl => exact step_faultRecord?_of_lookup_some hs h hpc hc hl

/-- Settles O20: an enabled machine reports the first line that holds
(`step_faultRecord?_of_enabled`); the two stops of the host hold no record. -/
theorem firstFaultOfThePriorityList : Obligations.FirstFaultOfThePriorityList := by
  refine fun s t hst => ⟨fun hs => step_faultRecord?_of_enabled hs hst, fun hs => ?stopped⟩
  case stopped =>
    obtain ⟨-, ⟨-, rfl⟩ | ⟨-, -, rfl⟩ | ⟨hen, -⟩⟩ := step_next hst
    · rfl
    · rfl
    · exact absurd hen hs

/-! ## Precision -/

/-- Of the four ends of an iteration only the fault entry is FAULTED. -/
theorem StepEnd.eq_takeFault {s t : State} {f : FaultRecord} (h : StepEnd s t)
    (hr : s.status = .running) (hf : t.status = .faulted f) :
    t = takeFault s f ∧ f.pc = s.pc := by
  cases h with
  | cancelled h => cases hf
  | capped h => cases hf
  | faulted g hpc =>
    cases hf
    exact ⟨rfl, hpc⟩
  | completed hcap hi he hpc =>
    exact absurd hf (faultFree_iff.mp (he.faultFree (latched_faultFree hr)) f)

/-- Settles O21: a step that ends in FAULTED is the one fault entry of its iteration
(`StepEnd.eq_takeFault`), which sets only the status and `running`. -/
theorem faultsArePrecise : Obligations.FaultsArePrecise := by
  intro s t f hst hf
  obtain ⟨hr, hend⟩ := step_end hst
  exact hend.eq_takeFault hr hf

/-! ## DivideByZero -/

/-- A step raises DivideByZero only where the opcode table holds DIV. -/
theorem div_mem_table_of_divideByZero {s t : State} {f : FaultRecord} (h : step s = .next t)
    (hf : t.status = .faulted f) (hk : f.kind = .divideByZero) :
    Op.div ∈ Op.table s.params.extAlu := by
  obtain ⟨hr, ⟨-, rfl⟩ | ⟨-, -, rfl⟩ | ⟨-, h⟩⟩ := step_next h
  · cases hf
  · cases hf
  rcases fetchExecute_next h with ⟨-, g, -, hkind, rfl⟩ | ⟨i, u, hi, hu, ⟨g, hg, rfl⟩ | ⟨hnot, rfl⟩⟩
  · cases hf
    simp [hk] at hkind
  · cases hf
    obtain ⟨-, o, hl, rfl⟩ := decode_ok (current_eq_some.mp hi).2
    have hfault := exec_withOperands_faultRecord? (latched_faultFree hr) hu
    rw [faultRecord?_of_status hg] at hfault
    rw [← eq_div_of_operandFault hfault.symm hk]
    exact (lookup_some hl).1
  · exact absurd hf (hnot f)

/-- Settles O24: DIV's fault is `exec_div_zero`; the table without EXT_ALU holds no DIV
(`div_mem_table_of_divideByZero`). -/
theorem divideByZeroIsRaised : Obligations.DivideByZeroIsRaised := by
  refine ⟨fun s a b ha hb hzero => exec_div_zero s ha hb hzero, fun s t f hext hst hf hk => ?base⟩
  case base =>
    have hmem := div_mem_table_of_divideByZero hst hf hk
    rw [hext] at hmem
    exact absurd hmem (by decide)

end Sys2Proof.Machine

/-! PROOFS. The round trip of the encoder and the decoder, and the rows EXT_ALU adds
(30_encoding.md R61 to R71, 40_execution_loop.md R85). -/

namespace Sys2Proof

/-! ## Operand bytes -/

theorem length_operands (i : Instr) : i.operands.length = i.op.operandCount := by
  cases i <;> rfl

/-- `Laws.OperandsRebuild.Statement` for every constructor at once. -/
theorem operandsRebuild (i : Instr) : Laws.OperandsRebuild.Statement i := by
  cases i with
  | hlt => exact Laws.OperandsRebuild.hlt
  | ret => exact Laws.OperandsRebuild.ret
  | push a => exact Laws.OperandsRebuild.push a
  | pop a => exact Laws.OperandsRebuild.pop a
  | prn a => exact Laws.OperandsRebuild.prn a
  | call a => exact Laws.OperandsRebuild.call a
  | ldi a b => exact Laws.OperandsRebuild.ldi a b
  | add a b => exact Laws.OperandsRebuild.add a b
  | mul a b => exact Laws.OperandsRebuild.mul a b
  | sub a b => exact Laws.OperandsRebuild.sub a b
  | div a b => exact Laws.OperandsRebuild.div a b

/-- Of the two operand bytes an instruction keeps as many as its operand count. -/
theorem operands_withOperands (o : Op) (a b : Byte) :
    (o.withOperands a b).operands = [a, b].take o.operandCount := by
  cases o <;> rfl

theorem operandCount_le_two (o : Op) : o.operandCount ≤ 2 := by
  cases o <;> decide

/-- Padding with zeros does not show in the bytes that the list holds itself. -/
theorem take_getD_pair {l : List Byte} {n : Nat} (hn : n ≤ 2) (hl : n ≤ l.length) :
    [l.getD 0 0, l.getD 1 0].take n = l.take n := by
  match n, l with
  | 0, _ => rfl
  | 1, _ :: _ => rfl
  | 2, _ :: _ :: _ => rfl

/-! ## The bytes of the table -/

/-- An admissible map is injective, so the byte of a table row is found for that row. -/
theorem lookup_byte {m : OpcodeMap} {x : Bool} {o : Op} (hm : m.admissible x = true)
    (ho : o ∈ Op.table x) : lookup m x (m.byte o) = some o := by
  obtain ⟨hinj, -, -⟩ := admissible_iff.mp hm
  obtain ⟨o', hl⟩ := exists_lookup_of_mem_table ⟨o, ho, rfl⟩
  obtain ⟨ho', hbyte⟩ := lookup_some hl
  rw [hl, List.inj_on_of_nodup_map hinj ho' ho hbyte]

/-- The class of a table byte is its row's operand count, and so gives the length too. -/
theorem decodeOp_byte {m : OpcodeMap} {x : Bool} {o : Op} (hm : m.admissible x = true)
    (ho : o ∈ Op.table x) :
    decodeOp m x (m.byte o) =
      .ok { ins := o, cls := opClass (m.byte o), len := o.length, aluop := o.aluOp? } := by
  obtain ⟨-, hcount, hclass⟩ := admissible_iff.mp hm
  rw [decodeOp_of_lookup_some (hclass o ho) (lookup_byte hm ho), hcount o ho, Op.length]

/-! ## The round trip -/

/-- Settles O10: the opcode byte decodes to its row (`decodeOp_byte`), whose length takes exactly
the operand bytes off the list, and they rebuild the instruction (`operandsRebuild`). -/
theorem decodeOfEncode : Obligations.DecodeOfEncode := by
  intro m x i rest hm hi
  have hlen : i.op.length = i.operands.length + 1 := congrArg (· + 1) (length_operands i).symm
  have henough : ¬ (i.operands ++ rest).length + 1 < i.op.length := by
    rw [hlen, List.length_append]
    omega
  rw [encode, List.cons_append, decodeBytes, decodeOp_byte hm hi]
  dsimp only
  rw [if_neg henough, operandsRebuild i rest, hlen, Nat.add_sub_cancel, List.drop_left]

/-- Everything a decoder that accepts a byte list has found. -/
theorem decodeBytes_ok {m : OpcodeMap} {x : Bool} {bytes rest : List Byte} {i : Instr}
    (hm : m.admissible x = true) (h : decodeBytes m x bytes = .ok (i, rest)) :
    ∃ o ∈ Op.table x, ∃ tail, bytes = m.byte o :: tail ∧ o.operandCount ≤ tail.length ∧
      i = o.withOperands (tail.getD 0 0) (tail.getD 1 0) ∧ rest = tail.drop o.operandCount := by
  cases bytes with
  | nil => cases h
  | cons op tail =>
    rw [decodeBytes] at h
    cases hd : decodeOp m x op with
    | error e => simp [hd] at h
    | ok d =>
      obtain ⟨-, o, hl, -⟩ := decodeOp_ok hd
      obtain ⟨ho, rfl⟩ := lookup_some hl
      rw [decodeOp_byte hm ho] at h
      dsimp only at h
      split at h
      · cases h
      · next hlen =>
        cases h
        exact ⟨o, ho, tail, rfl, by simpa [Op.length] using hlen, rfl, rfl⟩

/-- Settles O11: the bytes that `decodeBytes_ok` names are the opcode byte and the operand bytes
that `operands_withOperands` reads back. -/
theorem encodeOfDecode : Obligations.EncodeOfDecode := by
  intro m x bytes rest i hm hd
  obtain ⟨o, ho, tail, rfl, hlen, rfl, rfl⟩ := decodeBytes_ok hm hd
  rw [encode, op_withOperands, operands_withOperands,
    take_getD_pair (operandCount_le_two o) hlen, List.cons_append, List.take_append_drop]
  exact ⟨ho, rfl⟩

/-! ## EXT_ALU and unused operands -/

theorem decode_byte {m : OpcodeMap} {x : Bool} {o : Op} (hm : m.admissible x = true)
    (ho : o ∈ Op.table x) (a b : Byte) : decode m x (m.byte o) a b = .ok (o.withOperands a b) := by
  rw [decode, decodeOp_byte hm ho]

/-- Settles O17: SUB and DIV are the rows that only EXT_ALU adds (`decodeOp_of_only_extAlu`), and
with it their bytes decode as those of every row do (`decode_byte`). -/
theorem extAluGatesSubAndDiv : Obligations.ExtAluGatesSubAndDiv := by
  refine ⟨fun m hm => ⟨?sub, ?div, decode_byte (o := .sub) hm (by decide),
    decode_byte (o := .div) hm (by decide)⟩, rfl, by decide, rfl, rfl⟩
  case sub => exact decodeOp_of_only_extAlu (o := .sub) hm (by decide) (by decide)
  case div => exact decodeOp_of_only_extAlu (o := .div) hm (by decide) (by decide)

/-- An instruction is its name and the operand bytes it uses. -/
theorem instr_ext {i j : Instr} (hop : i.op = j.op) (hoperands : i.operands = j.operands) :
    i = j := by
  have hi := operandsRebuild i []
  rw [hop, hoperands] at hi
  exact hi.symm.trans (operandsRebuild j [])

/-- Latched bytes that agree as far as the operand count goes make the same instruction. -/
theorem withOperands_congr {o : Op} {a b a' b' : Byte}
    (h : [a, b].take o.operandCount = [a', b'].take o.operandCount) :
    o.withOperands a b = o.withOperands a' b' :=
  instr_ext (by rw [op_withOperands, op_withOperands])
    (by rw [operands_withOperands, operands_withOperands, h])

theorem decode_of_decodeOp_ok {m : OpcodeMap} {x : Bool} {ir : Byte} {d : Decoded}
    (h : decodeOp m x ir = .ok d) (a b : Byte) :
    decode m x ir a b = .ok (d.ins.withOperands a b) := by
  rw [decode, h]

/-- Settles O15: the decoded instruction keeps of the two latched bytes only those its operand count
takes (`withOperands_congr`). -/
theorem unusedOperandBytesAreIgnored : Obligations.UnusedOperandBytesAreIgnored := by
  intro m x op a b a' b' d hd
  simp only [decode_of_decodeOp_ok hd]
  exact ⟨fun h => congrArg Except.ok (withOperands_congr (by rw [h]; rfl)),
    fun h => congrArg Except.ok (withOperands_congr (by rw [h]; rfl))⟩

/-! ## The words of the opcode table -/

/-- A word whose first byte is that of a table row decodes to the row with the next two bytes. -/
theorem decodeTableWord_of_byte {nbits w : Nat} {o : Op}
    (h : tableByte nbits w 0 = OpcodeMap.default.byte o) :
    decodeTableWord nbits w =
      some (o.withOperands (tableByte nbits w 1) (tableByte nbits w 2)) := by
  have ho : o ∈ Op.table true := by cases o <;> decide
  rw [decodeTableWord, h, decode_byte (by decide) ho]

/-- Settles O16: the first byte of each word is that of its row (`decodeTableWord_of_byte`); the
last two words hold an unlisted byte and a byte of class 3. -/
theorem wordsOfTheTableDecode : Obligations.WordsOfTheTableDecode := by
  refine ⟨decodeTableWord_of_byte (o := .hlt) rfl, decodeTableWord_of_byte (o := .ret) rfl,
    decodeTableWord_of_byte (o := .push) rfl, decodeTableWord_of_byte (o := .pop) rfl,
    decodeTableWord_of_byte (o := .prn) rfl, decodeTableWord_of_byte (o := .call) rfl,
    decodeTableWord_of_byte (o := .ldi) rfl, decodeTableWord_of_byte (o := .add) rfl,
    decodeTableWord_of_byte (o := .mul) rfl, decodeTableWord_of_byte (o := .sub) rfl,
    decodeTableWord_of_byte (o := .div) rfl, ?notInTable, ?unusedClass⟩
  case notInTable => decide
  case unusedClass => decide

end Sys2Proof

/-! PROOFS. The machine's invariant: it holds where a run begins and every step keeps it
(10_state.md R25, R27, 20_memory.md R40, 30_encoding.md R67). -/

namespace Sys2Proof.Machine

/-! ## Where a run begins -/

/-- Settles O2: the checks of `launch` are its two premises (`launch_of_valid`), the image's cells
are `read_loadImage_construct`, and the other fields are those of the construction. -/
theorem launchLoadsTheImage : Obligations.LaunchLoadsTheImage := by
  refine fun p image startPc => ⟨fun hlen hp => ?valid, fun hlong => ?tooLong,
    fun hlen hp => ?inadmissible⟩
  case valid =>
    exact ⟨_, launch_of_valid startPc hlen hp, setPc_pc _ _, read_loadImage_construct p hlen,
      rfl, rfl, rfl, rfl, rfl, rfl⟩
  case tooLong => exact if_pos hlong
  case inadmissible => rw [launch, if_neg (Nat.not_lt.mpr hlen), if_pos hp]

theorem construct_inv {p : Params} (hp : paramsOk p = true) : (State.construct p).Inv where
  memory := rfl
  running := iff_of_true rfl rfl
  pc := Nat.zero_le 256
  params := hp

/-- The image hand-over writes cells of the array, and START_PC may be anywhere in the range of
`pc`. -/
theorem launch_inv {p : Params} {image : List Byte} {startPc : Nat} {s : State}
    (hpc : startPc ≤ 256) (h : launch p image startPc = .next s) : s.Inv := by
  obtain ⟨hlen, hp, rfl⟩ := launch_next h
  exact {
    memory := Memory.wf_load image (construct_inv hp).memory (by simpa using hlen)
    running := (construct_inv hp).running
    pc := hpc
    params := hp }

/-- Settles O6: `construct_inv` for the base configuration, `launch_inv` for every launch. -/
theorem launchBeginsInTheInvariant : Obligations.LaunchBeginsInTheInvariant :=
  ⟨construct_inv (by decide), fun _ _ _ _ hpc h => launch_inv hpc h⟩

/-! ## What every step keeps -/

/-- Every end of a run clears `running` and moves nothing else the invariant speaks of. -/
theorem leaveRunning_inv {s : State} {st : Status} (hs : s.Inv) (hst : st ≠ .running) :
    (leaveRunning s st).Inv where
  memory := hs.memory
  running := iff_of_false Bool.false_ne_true hst
  pc := hs.pc
  params := hs.params

/-- A stack write hits a cell of the array, its address being a byte. -/
theorem Effect.mem_wf {s t : State} {i : Instr} (h : Effect s i t)
    (hs : Memory.wf s.mem = true) : Memory.wf t.mem = true := by
  cases h with
  | push v ha => exact Memory.wf_write v hs (BitVec.isLt _)
  | call target ha => exact Memory.wf_write _ hs (BitVec.isLt _)
  | _ => exact hs

/-- A completed instruction of a RUNNING machine touches the status and `running` together. -/
theorem Effect.runningAgrees {s t : State} {i : Instr} (h : Effect s i t) (hs : s.runningAgrees) :
    t.runningAgrees := by
  rcases h.status_cases with ⟨hst, hrun⟩ | ⟨-, hst, hrun⟩
  · rwa [State.runningAgrees, hst, hrun]
  · exact iff_of_false (by simp [hrun]) (by simp [hst])

/-- After a successful fetch the advance ends at 256 at most, and a jump's target is a byte. -/
theorem nextPc_le {s : State} {i : Instr} (hpc : s.pc + 2 < 256) : nextPc s i ≤ 256 := by
  have hlen : i.op.length ≤ 3 := Nat.succ_le_succ (operandCount_le_two i.op)
  by_cases hcall : i.op = .call
  · cases i <;> cases hcall
    exact (BitVec.isLt _).le
  by_cases hret : i.op = .ret
  · cases i <;> cases hret
    exact (BitVec.isLt _).le
  rw [nextPc_of_not_jump s hcall hret]
  omega

/-- Settles O5: three of the four ends of an iteration leave RUNNING (`leaveRunning_inv`); a
completed instruction keeps each part by its own lemma. -/
theorem stepKeepsTheInvariant : Obligations.StepKeepsTheInvariant := by
  intro s t hs hst
  cases (step_end hst).2 with
  | cancelled h => exact leaveRunning_inv hs (by simp)
  | capped h => exact leaveRunning_inv hs (by simp)
  | faulted f h => exact leaveRunning_inv hs (by simp)
  | completed hcap hi he hpc =>
    obtain ⟨hfetch, -⟩ := current_eq_some.mp hi
    exact {
      memory := he.mem_wf hs.memory
      running := he.runningAgrees hs.running
      pc := hpc.trans_le (nextPc_le hfetch)
      params := (congrArg paramsOk he.params_eq).trans hs.params }

/-! ## Reachable states -/

theorem status_of_faultRecord? {s : State} {f : FaultRecord} (h : s.faultRecord? = some f) :
    s.status = .faulted f := by
  unfold State.faultRecord? at h
  split at h
  · next g hst => rw [hst, Option.some.inj h]
  all_goals cases h

/-- What is said of every reachable state: the invariant, and that a fault names `pc`
(10_state.md R28). -/
def Sound (s : State) : Prop := s.Inv ∧ ∀ f, s.faultRecord? = some f → f.pc = s.pc

theorem launch_sound {p : Params} {image : List Byte} {startPc : Nat} {s : State}
    (hpc : startPc ≤ 256) (h : launch p image startPc = .next s) : Sound s := by
  refine ⟨launch_inv hpc h, fun f hf => ?_⟩
  obtain ⟨-, -, rfl⟩ := launch_next h
  cases hf

theorem step_keeps_sound {s t : State} (hs : Sound s) (h : step s = .next t) : Sound t := by
  refine ⟨stepKeepsTheInvariant s t hs.1 h, fun f hf => ?_⟩
  obtain ⟨rfl, hpc⟩ := faultsArePrecise s t f h (status_of_faultRecord? hf)
  exact hpc

/-- Settles O7: `Sound` holds at every launch and is kept by every step; a canonical memory lists no
cell outside the array. -/
theorem reachableStatesAreSound : Obligations.ReachableStatesAreSound := by
  rintro t ⟨p, image, startPc, s, hpc, hlaunch, hrun⟩
  have hstart := launch_sound hpc hlaunch
  obtain ⟨hinv, hfault⟩ := reaches_keeps (fun _ _ => step_keeps_sound) hrun hstart
  exact ⟨hinv.running, hinv.pc, fun _ haddr => Memory.read_outside hinv.memory haddr, hfault⟩

/-! ## The parameters -/

theorem StepEnd.params_eq {s t : State} (h : StepEnd s t) : t.params = s.params := by
  cases h with
  | completed hcap hi he hpc => exact he.params_eq
  | _ => rfl

/-- Settles O9: no end of an iteration touches the parameters (`StepEnd.params_eq`). -/
theorem parametersNeverChange : Obligations.ParametersNeverChange := by
  intro s t h
  refine reaches_keeps (P := fun u => u.params = s.params) (fun a b ha hstep => ?_) h rfl
  exact (step_end hstep).2.params_eq.trans ha

end Sys2Proof.Machine

/-! PROOFS. What the instructions leave unchanged (the frames of 41_load_and_print.md, 42_alu.md,
43_halt.md, 44_stack.md, 45_subroutine.md), and what a step may write to memory and to the output
(20_memory.md section 1, 10_state.md section 5). -/

namespace Sys2Proof.Machine

/-! ## Registers -/

/-- Settles O3: the register file's laws of reading after a write, with the reduction of
10_state.md R21. -/
theorem registerWriteReducesModulo256 : Obligations.RegisterWriteReducesModulo256 := by
  refine fun s r v => ⟨?reduced, fun q hq => readReg_writeReg_other s v hq, rfl⟩
  case reduced =>
    rw [readReg_writeReg_same, trunc8_toNat]
    omega

/-- The registers an instruction may write. -/
def destinations : Instr → List Reg
  | .hlt | .prn _ => []
  | .push _ | .call _ | .ret => [sp]
  | .pop a => [regOf a, sp]
  | .ldi a _ | .add a _ | .mul a _ | .sub a _ | .div a _ => [regOf a]

/-- The three-byte instructions are those whose `Effect` does not name the destination. -/
theorem Effect.readReg_eq {s t : State} {i : Instr} {r : Reg} (h : Effect s i t)
    (hlen : i.op.length ≠ 3) (hr : r ∉ destinations i) : readReg t r = readReg s r := by
  cases h with
  | register q v hop =>
    exact absurd (by rcases hop with e | e | e | e | e <;> rw [e] <;> rfl) hlen
  | print ha => rfl
  | halt => rfl
  | push v ha => exact readReg_writeReg_other s _ (List.ne_of_not_mem_cons hr)
  | pop ha =>
    obtain ⟨hra, hrsp⟩ := List.ne_and_not_mem_of_not_mem_cons hr
    exact (readReg_writeReg_other _ _ (List.ne_of_not_mem_cons hrsp)).trans
      (readReg_writeReg_other s _ hra)
  | call target ha => exact readReg_writeReg_other s _ (List.ne_of_not_mem_cons hr)
  | ret => exact readReg_writeReg_other s _ (List.ne_of_not_mem_cons hr)

/-- An ALU instruction writes at most its first operand. -/
theorem readReg_of_concludeAlu {op : AluOp} {a b : Byte} {s t : State} {r : Reg}
    (h : conclude s (aluApply op a b s) = .next t) (hr : r ≠ regOf a) :
    readReg t r = readReg s r := by
  rcases conclude_next h with hok | ⟨c, -, rfl⟩
  · obtain ⟨-, -, v, -, rfl⟩ := aluApply_ok hok
    exact readReg_writeReg_other s v hr
  · rfl

theorem readReg_of_exec_ldi {a b : Byte} {s t : State} {r : Reg}
    (h : exec (.ldi a b) s = .next t) (hr : r ≠ regOf a) : readReg t r = readReg s r := by
  rcases Nat.lt_or_ge a.toNat 8 with ha | ha
  · cases (exec_ldi_legal s b ha).symm.trans h
    exact readReg_writeReg_other s _ hr
  · cases (exec_ldi_illegal s b ha).symm.trans h
    rfl

/-- An instruction changes no register but its destinations. -/
theorem exec_readReg {i : Instr} {s t : State} {r : Reg} (h : exec i s = .next t)
    (hr : r ∉ destinations i) : readReg t r = readReg s r := by
  cases i with
  | ldi a b => exact readReg_of_exec_ldi h (List.ne_of_not_mem_cons hr)
  | add a b => exact readReg_of_concludeAlu h (List.ne_of_not_mem_cons hr)
  | mul a b => exact readReg_of_concludeAlu h (List.ne_of_not_mem_cons hr)
  | sub a b => exact readReg_of_concludeAlu h (List.ne_of_not_mem_cons hr)
  | div a b => exact readReg_of_concludeAlu h (List.ne_of_not_mem_cons hr)
  | _ =>
    rcases exec_next h with he | ⟨c, -, rfl⟩
    · exact he.readReg_eq nofun hr
    · rfl

/-! ## Memory -/

/-- A stack write changes no cell but the one at the decremented SP. -/
theorem read_stackWrite_cases (s : State) (v : Byte) (addr : Nat) :
    Memory.read (Memory.write s.mem (trunc8 ((readReg s sp).toNat - 1)).toNat v) addr =
        Memory.read s.mem addr ∨ addr = (readReg s sp - 1).toNat := by
  rw [trunc8_toNat_sub_one]
  by_cases haddr : addr = (readReg s sp - 1).toNat
  · exact .inr haddr
  · exact .inl (Memory.read_write_other s.mem v haddr)

/-- A completed instruction changes no cell, or is PUSH or CALL and changes the one at the
decremented SP. -/
theorem Effect.read_mem_cases {s t : State} {i : Instr} (h : Effect s i t) (addr : Nat) :
    Memory.read t.mem addr = Memory.read s.mem addr ∨
      (((∃ a, i = .push a) ∨ ∃ a, i = .call a) ∧ addr = (readReg s sp - 1).toNat) := by
  cases h with
  | push v ha => exact (read_stackWrite_cases s v addr).imp_right fun h => ⟨.inl ⟨_, rfl⟩, h⟩
  | call target ha => exact (read_stackWrite_cases s _ addr).imp_right fun h => ⟨.inr ⟨_, rfl⟩, h⟩
  | _ => exact .inl rfl

theorem exec_read_mem_cases {i : Instr} {s t : State} (h : exec i s = .next t) (addr : Nat) :
    Memory.read t.mem addr = Memory.read s.mem addr ∨
      (((∃ a, i = .push a) ∨ ∃ a, i = .call a) ∧ addr = (readReg s sp - 1).toNat) := by
  rcases exec_next h with he | ⟨c, -, rfl⟩
  · exact he.read_mem_cases addr
  · exact .inl rfl

theorem exec_read_mem {i : Instr} {s t : State} (h : exec i s = .next t) (hpush : i.op ≠ .push)
    (hcall : i.op ≠ .call) (addr : Nat) : Memory.read t.mem addr = Memory.read s.mem addr := by
  rcases exec_read_mem_cases h addr with hmem | ⟨⟨a, rfl⟩ | ⟨a, rfl⟩, -⟩
  · exact hmem
  · exact absurd rfl hpush
  · exact absurd rfl hcall

/-- Settles O41: only a completed instruction touches memory, as `Effect.read_mem_cases` says. -/
theorem onlyPushAndCallWriteMemory : Obligations.OnlyPushAndCallWriteMemory := by
  intro s t addr hst hne
  cases (step_end hst).2 with
  | completed hcap hi he hpc =>
    obtain ⟨hwriter, haddr⟩ := (he.read_mem_cases addr).resolve_left hne
    exact ⟨hwriter.imp (fun ⟨a, ha⟩ => ⟨a, ha ▸ hi⟩) (fun ⟨a, ha⟩ => ⟨a, ha ▸ hi⟩), haddr⟩
  | _ => exact absurd rfl hne

/-! ## The output -/

/-- A completed instruction leaves the output, or is PRN and appends its register's value. -/
theorem Effect.out_cases {s t : State} {i : Instr} (h : Effect s i t) :
    t.out = s.out ∨
      ∃ a, i = .prn a ∧ a.toNat < 8 ∧ t.out = s.out ++ [readReg s (regOf a)] := by
  cases h with
  | print ha => exact .inr ⟨_, rfl, ha, rfl⟩
  | _ => exact .inl rfl

theorem exec_out {i : Instr} {s t : State} (h : exec i s = .next t) (hprn : i.op ≠ .prn) :
    t.out = s.out := by
  rcases exec_next h with he | ⟨c, -, rfl⟩
  · rcases he.out_cases with hout | ⟨a, rfl, -⟩
    · exact hout
    · exact absurd rfl hprn
  · rfl

/-- Settles O42: only a completed instruction touches the output, as `Effect.out_cases` says. -/
theorem onlyPrnWritesTheOutput : Obligations.OnlyPrnWritesTheOutput := by
  intro s t hst
  cases (step_end hst).2 with
  | completed hcap hi he hpc =>
    rcases he.out_cases with hout | ⟨a, rfl, ha, hout⟩
    · exact .inl hout
    · exact .inr ⟨a, hi, ha, hout⟩
  | _ => exact .inl rfl

/-! ## Latches, step count, parameters and status -/

/-- No handler touches the latches, the step count or the parameters. -/
theorem exec_keeps {i : Instr} {s t : State} (h : exec i s = .next t) :
    t.ir = s.ir ∧ t.latchA = s.latchA ∧ t.latchB = s.latchB ∧ t.steps = s.steps ∧
      t.params = s.params := by
  rcases exec_next h with he | ⟨c, -, rfl⟩
  · cases he <;> exact ⟨rfl, rfl, rfl, rfl, rfl⟩
  · exact ⟨rfl, rfl, rfl, rfl, rfl⟩

/-- Only HLT and a fault touch the status and `running`. -/
theorem exec_status_cases {i : Instr} {s t : State} (h : exec i s = .next t) (hhlt : i.op ≠ .hlt) :
    (t.status = s.status ∧ t.running = s.running) ∨
      ∃ f, t = { s with running := false, status := .faulted f } := by
  rcases exec_next h with he | ⟨c, -, rfl⟩
  · rcases he.status_cases with hst | ⟨rfl, -⟩
    · exact .inl hst
    · exact absurd rfl hhlt
  · exact .inr ⟨_, rfl⟩

/-! ## The frames -/

/-- Settles O37: the parts of the frame for an instruction that is none of HLT, PRN, PUSH and CALL
and whose one destination is `R[a]`. -/
theorem frameOfRegisterInstructions : Obligations.FrameOfRegisterInstructions := by
  intro a b s t i hi h
  have hop : destinations i = [regOf a] ∧ i.op ≠ .hlt ∧ i.op ≠ .prn ∧ i.op ≠ .push ∧
      i.op ≠ .call := by
    simp only [List.mem_cons, List.not_mem_nil, or_false] at hi
    rcases hi with rfl | rfl | rfl | rfl | rfl <;> exact ⟨rfl, nofun, nofun, nofun, nofun⟩
  obtain ⟨hdest, hhlt, hprn, hpush, hcall⟩ := hop
  obtain ⟨hir, hA, hB, hsteps, hparams⟩ := exec_keeps h
  exact ⟨fun r hr => exec_readReg h (by simpa [hdest] using hr), exec_read_mem h hpush hcall,
    exec_out h hprn, hir, hA, hB, hsteps, hparams, exec_status_cases h hhlt⟩

/-- Settles O38: PRN and HLT have no destination and store nothing; only PRN writes the output and
only HLT the status. -/
theorem frameOfPrnAndHlt : Obligations.FrameOfPrnAndHlt := by
  refine fun a s t => ⟨fun i hi h => ?frame, fun h => exec_status_cases h nofun,
    fun h => exec_out h nofun⟩
  have hop : destinations i = [] ∧ i.op ≠ .push ∧ i.op ≠ .call := by
    simp only [List.mem_cons, List.not_mem_nil, or_false] at hi
    rcases hi with rfl | rfl <;> exact ⟨rfl, nofun, nofun⟩
  obtain ⟨hdest, hpush, hcall⟩ := hop
  exact ⟨fun r => exec_readReg h (by simp [hdest]), exec_read_mem h hpush hcall, exec_keeps h⟩

/-- Settles O39: PUSH and CALL have SP as their destination and store at the decremented SP only. -/
theorem frameOfPushAndCall : Obligations.FrameOfPushAndCall := by
  intro a s t i hi h
  have hop : destinations i = [sp] ∧ i.op ≠ .hlt ∧ i.op ≠ .prn := by
    simp only [List.mem_cons, List.not_mem_nil, or_false] at hi
    rcases hi with rfl | rfl <;> exact ⟨rfl, nofun, nofun⟩
  obtain ⟨hdest, hhlt, hprn⟩ := hop
  obtain ⟨hir, hA, hB, hsteps, hparams⟩ := exec_keeps h
  refine ⟨fun r hr => exec_readReg h (by simpa [hdest] using hr), fun addr haddr => ?cells,
    exec_out h hprn, hir, hA, hB, hsteps, hparams, exec_status_cases h hhlt⟩
  rw [readReg_writeReg_same, trunc8_toNat_sub_one] at haddr
  exact (exec_read_mem_cases h addr).resolve_right fun hwrite => haddr hwrite.2

/-- Settles O40: the destinations of POP are `R[a]` and SP, that of RET is SP, and neither stores.
-/
theorem frameOfPopAndRet : Obligations.FrameOfPopAndRet := by
  refine fun a s t => ⟨fun h r hsp ha => exec_readReg h (by simp [destinations, hsp, ha]),
    fun h r hsp => exec_readReg h (by simp [destinations, hsp]), fun i hi h => ?rest⟩
  have hop : i.op ≠ .hlt ∧ i.op ≠ .prn ∧ i.op ≠ .push ∧ i.op ≠ .call := by
    simp only [List.mem_cons, List.not_mem_nil, or_false] at hi
    rcases hi with rfl | rfl <;> exact ⟨nofun, nofun, nofun, nofun⟩
  obtain ⟨hhlt, hprn, hpush, hcall⟩ := hop
  obtain ⟨hir, hA, hB, hsteps, hparams⟩ := exec_keeps h
  exact ⟨exec_read_mem h hpush hcall, exec_out h hprn, hir, hA, hB, hsteps, hparams,
    exec_status_cases h hhlt⟩

end Sys2Proof.Machine

/-! PROOFS. The faults of the handlers and of the fetch, told apart (10_state.md R23, 20_memory.md
R45, 60_exceptions.md section 1), and what one step runs or stops (40_execution_loop.md sections 1
and 6). -/

namespace Sys2Proof.Machine

/-! ## The fault record -/

/-- Settles O25: the codes and the records are read off their tables. -/
theorem faultCodesAndDetails : Obligations.FaultCodesAndDetails :=
  ⟨rfl, rfl, rfl, rfl, fun _ _ _ _ => ⟨rfl, rfl, rfl, rfl⟩⟩

theorem faultRecord?_eq_some {s : State} {f : FaultRecord} :
    s.faultRecord? = some f ↔ s.status = .faulted f :=
  ⟨status_of_faultRecord?, faultRecord?_of_status⟩

/-! ## IllegalRegister -/

theorem exists_withOperands (i : Instr) : ∃ a b, i = i.op.withOperands a b :=
  ⟨_, _, (operandsRebuild i []).symm⟩

theorem regOk_eq_false {r : Byte} : regOk r = false ↔ 8 ≤ r.toNat := by
  rw [regOk, decide_eq_false_iff_not, Nat.not_lt]

/-- An instruction is ill-formed where the register checks of 40_execution_loop.md R91 fail. -/
theorem wf_withOperands_eq_false {o : Op} {a b : Byte} :
    (o.withOperands a b).wf = false ↔
      (usesA o = true ∧ 8 ≤ a.toNat) ∨ (usesB o = true ∧ 8 ≤ b.toNat) := by
  cases o <;> simp [Op.withOperands, Instr.wf, usesA, usesB, regOk_eq_false, Bool.and_eq_false_iff,
    -Bool.and_eq_false_imp]

/-- The first two of a handler's three fault lines are the ones that report IllegalRegister. -/
theorem operandFault_illegalRegister (s : State) (o : Op) (a b : Byte) :
    ((usesA o = true ∧ 8 ≤ a.toNat) ∨ (usesB o = true ∧ 8 ≤ b.toNat)) ↔
      ∃ f, operandFault s o a b = some f ∧ f.kind = .illegalRegister := by
  unfold operandFault
  split
  · next hA => exact iff_of_true (.inl hA) ⟨_, rfl, rfl⟩
  next hA =>
  split
  · next hB => exact iff_of_true (.inr hB) ⟨_, rfl, rfl⟩
  next hB =>
  refine iff_of_false (not_or.mpr ⟨hA, hB⟩) ?_
  rintro ⟨f, hf, hk⟩
  split at hf <;> cases hf
  cases hk

/-- Settles O23: the record of the next state is `operandFault`, which reports IllegalRegister
exactly where the register checks fail. -/
theorem illFormedExactlyWhenIllegalRegister : Obligations.IllFormedExactlyWhenIllegalRegister := by
  intro i s t hs h
  obtain ⟨a, b, hi⟩ := exists_withOperands i
  rw [hi] at h ⊢
  rw [wf_withOperands_eq_false, operandFault_illegalRegister s,
    ← exec_withOperands_faultRecord? hs h]
  simp only [faultRecord?_eq_some]

/-! ## OutOfBounds -/

/-- The last three lines of the priority list report no OutOfBounds. -/
theorem operandFault_kind_cases {s : State} {o : Op} {a b : Byte} {f : FaultRecord}
    (h : operandFault s o a b = some f) : f.kind = .illegalRegister ∨ f.kind = .divideByZero := by
  unfold operandFault at h
  split_ifs at h <;> cases h
  · exact .inl rfl
  · exact .inl rfl
  · exact .inr rfl

/-- The first three lines of the priority list are the ones that report OutOfBounds. -/
theorem firstFault_outOfBounds {s : State} {f : FaultRecord} (h : firstFault s = some f) :
    f.kind = .outOfBounds ↔ 254 ≤ s.pc := by
  unfold firstFault at h
  dsimp only at h
  split at h
  · cases h
    exact iff_of_true rfl (by omega)
  split at h
  · cases h
    exact iff_of_true rfl (by omega)
  split at h
  · cases h
    exact iff_of_true rfl (by omega)
  refine iff_of_false (fun hk => ?_) (by omega)
  split at h
  · cases h
    cases hk
  split at h
  · cases h
    cases hk
  · next o hl =>
    have hcases := operandFault_kind_cases (s := s.latched) h
    simp [hk] at hcases

/-- Only an enabled machine's step ends in a fault, and the fault is that of the priority list. -/
theorem firstFault_of_step_faulted {s t : State} {f : FaultRecord} (h : step s = .next t)
    (hf : t.status = .faulted f) : firstFault s = some f := by
  obtain ⟨-, ⟨-, rfl⟩ | ⟨-, -, rfl⟩ | ⟨hs, -⟩⟩ := step_next h
  · cases hf
  · cases hf
  · rw [← step_faultRecord?_of_enabled hs h, faultRecord?_of_status hf]

theorem handlerCause.kind_cases {c : FaultCause} (h : handlerCause c) :
    c.kind = .illegalRegister ∨ c.kind = .divideByZero := by
  rcases h with ⟨r, rfl⟩ | rfl
  · exact .inl rfl
  · exact .inr rfl

/-- Settles O52: a handler's causes are those of `exec_next`; a step's fault is the first of the
priority list (`firstFault_of_step_faulted`). -/
theorem onlyTheFetchIsOutOfBounds : Obligations.OnlyTheFetchIsOutOfBounds := by
  refine ⟨fun i s t f hs h hf => ?handler,
    fun s t f hst hf => firstFault_outOfBounds (firstFault_of_step_faulted hst hf)⟩
  rcases exec_next h with he | ⟨c, hc, rfl⟩
  · exact absurd hf (faultFree_iff.mp (he.faultFree hs) f)
  · cases hf
    exact hc.kind_cases

/-! ## One step -/

/-- Settles O51: a RUNNING machine has a step, and only a RUNNING one (`step_next`). -/
theorem runningMachinesAlwaysStep : Obligations.RunningMachinesAlwaysStep :=
  fun _ => ⟨fun ⟨_, h⟩ => (step_next h).1, step_answers_of_running⟩

/-- Settles O49: the sample of this iteration is found by `steps`, and a signalled one stops the run
(`step_cancelled`). -/
theorem cancelStopsTheRunFirst : Obligations.CancelStopsTheRunFirst := by
  refine ⟨rfl, fun s samples hr hcancel hsample => step_cancelled hr ?_⟩
  rw [cancelSignalled, hcancel]
  exact hsample

theorem finishIteration_of_faulted {s t : State} {f : FaultRecord} (hf : t.status = .faulted f) :
    finishIteration s (.next t) = .next (takeFault s f) := by
  rw [finishIteration, hf]

theorem finishIteration_of_not_faulted {s t : State} (hf : ∀ f, t.status ≠ .faulted f) :
    finishIteration s (.next t) = .next (countStep t) := by
  obtain ⟨u, hu⟩ := finishIteration_answers s t
  rcases finishIteration_next hu with ⟨f, hst, -⟩ | ⟨-, rfl⟩
  · exact absurd hst (hf f)
  · exact hu

/-- Settles O18: the three bytes are those of `State.latched`, whose instruction `exec` runs, and
the two ends are those of `finishIteration`. -/
theorem stepRunsTheDecodedInstruction : Obligations.StepRunsTheDecodedInstruction := by
  intro s i hs hpc hd
  obtain ⟨t, ht⟩ := exec_answers i s.latched
  have hstep : step s = finishIteration s (.next t) := by
    rw [step_enabled hs, fetchExecute_current (current_eq_some.mpr ⟨hpc, hd⟩), ht]
  exact ⟨t, ht, fun hf => hstep.trans (finishIteration_of_not_faulted hf),
    fun f hf => hstep.trans (finishIteration_of_faulted hf)⟩

end Sys2Proof.Machine

/-! PROOFS. What the machine does not depend on: the output it has emitted and the latches it began
with (10_state.md sections 4 and 5). -/

namespace Sys2Proof.Machine

/-! ## The output and the latches replaced -/

/-- The state with another output and other latches. -/
def withOutLatches (s : State) (o : List Byte) (x y z : Byte) : State :=
  { s with out := o, ir := x, latchA := y, latchB := z }

/-- The state with another output. -/
def withOut (s : State) (o : List Byte) : State := { s with out := o }

/-- Two sequences whose rests agree up to `f` agree up to `f`. -/
theorem bind_eq_map_bind {ε α β : Type} {x : Except ε α} {k k' : α → Except ε β} {f : β → β}
    (h : ∀ a, k' a = (k a).map f) : (x >>= k') = (x >>= k).map f := by
  cases x with
  | error c => rfl
  | ok a => exact h a

/-- The fetch reads the same three bytes and sets all latches. -/
theorem fetch_withOutLatches (s : State) (o : List Byte) (x y z : Byte) :
    fetch (withOutLatches s o x y z) = (fetch s).map (withOut · o) :=
  bind_eq_map_bind fun _ => bind_eq_map_bind fun _ => bind_eq_map_bind fun _ => rfl

/-- A fetch that succeeds answers the latched state. -/
theorem fetch_ok {s u : State} (h : fetch s = .ok u) : u = s.latched := by
  rcases fetch_cases s with ⟨-, hl⟩ | ⟨-, e, he⟩
  · cases hl.symm.trans h
    rfl
  · cases he.symm.trans h

/-! ## One simulation for both statements -/

/-- The handlers of the two iterations: whatever one answers after the fetch of `s`, it answers with
the same status when the output is `o`, and the two counted states are related. -/
def HandlersRelated (s : State) (o : List Byte) (R : State → State → Prop) : Prop :=
  ∀ i v, exec i s.latched = .next v →
    ∃ v', exec i (withOut s.latched o) = .next v' ∧ v'.status = v.status ∧
      R (countStep v) (countStep v')

section Simulation

variable {s t : State} {o : List Byte} {x y z : Byte} {R : State → State → Prop}

/-- The fetch overwrites the latches, and the decoder reads no more than what it fetched. -/
theorem fetchExecute_simulated
    (hleave : ∀ st, R (leaveRunning s st) (leaveRunning (withOutLatches s o x y z) st))
    (hexec : HandlersRelated s o R) (h : fetchExecute s = .next t) :
    ∃ t', fetchExecute (withOutLatches s o x y z) = .next t' ∧ R t t' := by
  rw [fetchExecute] at h
  rw [fetchExecute, fetch_withOutLatches]
  cases hf : fetch s with
  | error e =>
    rw [hf] at h
    cases h
    exact ⟨_, rfl, hleave _⟩
  | ok u =>
    rw [hf] at h
    cases hd : decode u.params.opcodeMap u.params.extAlu u.ir u.latchA u.latchB with
    | error e =>
      simp only [hd] at h
      cases h
      refine ⟨_, ?_, hleave _⟩
      simp only [Except.map, withOut, hd]
      rfl
    | ok i =>
      simp only [hd] at h
      simp only [Except.map, withOut, hd]
      cases fetch_ok hf
      obtain ⟨v, hv⟩ := exec_answers i s.latched
      obtain ⟨v', hv', hst', hrel⟩ := hexec i v hv
      rw [withOut] at hv'
      rw [hv] at h
      rw [hv']
      rcases finishIteration_next h with ⟨f, hst, rfl⟩ | ⟨hst, rfl⟩
      · exact ⟨_, finishIteration_of_faulted (hst'.trans hst), hleave _⟩
      · exact ⟨_, finishIteration_of_not_faulted (hst' ▸ hst), hrel⟩

/-- A relation that the ends of a run and the handlers establish is established by every step: the
loop's own tests read neither the output nor the latches. -/
theorem step_simulated
    (hleave : ∀ st, R (leaveRunning s st) (leaveRunning (withOutLatches s o x y z) st))
    (hexec : HandlersRelated s o R) (h : step s = .next t) :
    ∃ t', step (withOutLatches s o x y z) = .next t' ∧ R t t' := by
  obtain ⟨hr, ⟨hc, rfl⟩ | ⟨hc, hn, rfl⟩ | ⟨hs, h⟩⟩ := step_next h
  · exact ⟨_, step_cancelled (s := withOutLatches s o x y z) hr hc, hleave _⟩
  · exact ⟨_, step_capped (s := withOutLatches s o x y z) hr hc hn, hleave _⟩
  · rw [step_enabled (s := withOutLatches s o x y z) hs]
    exact fetchExecute_simulated hleave hexec h

end Simulation

/-! ## The latches -/

/-- The states agree but for the latches. -/
def AgreeButLatches (t t' : State) : Prop :=
  ∃ x y z, t' = { t with ir := x, latchA := y, latchB := z }

/-- Settles O44: with the output kept the handlers begin in the same latched state, and a state left
early keeps the latches it began with. -/
theorem latchesAreSetBeforeTheyAreRead : Obligations.LatchesAreSetBeforeTheyAreRead := by
  intro s t x y z hst
  have hexec : HandlersRelated s s.out AgreeButLatches :=
    fun i v hv => ⟨v, hv, rfl, v.ir, v.latchA, v.latchB, rfl⟩
  obtain ⟨t', hstep, x', y', z', rfl⟩ :=
    step_simulated (x := x) (y := y) (z := z) (fun st => ⟨x, y, z, rfl⟩) hexec hst
  exact ⟨x', y', z', hstep⟩

/-! ## The output -/

/-- A handler whose result differs in the output alone ends so. -/
theorem conclude_withOut {s t : State} {r r' : Except FaultCause State} {o : List Byte}
    (hr : r' = r.map (withOut · o)) (h : conclude s r = .next t) :
    conclude (withOut s o) r' = .next (withOut t o) := by
  subst hr
  rcases conclude_next h with rfl | ⟨c, rfl, rfl⟩ <;> rfl

theorem aluApply_withOut (op : AluOp) (a b : Byte) (s : State) (o : List Byte) :
    aluApply op a b (withOut s o) = (aluApply op a b s).map (withOut · o) :=
  bind_eq_map_bind fun _ => bind_eq_map_bind fun _ => bind_eq_map_bind fun _ => rfl

/-- Every instruction but PRN carries the output along unread. -/
theorem exec_withOut {i : Instr} (hprn : i.op ≠ .prn) {s t : State} (o : List Byte)
    (h : exec i s = .next t) : exec i (withOut s o) = .next (withOut t o) := by
  cases i with
  | hlt => exact conclude_withOut (s := s) (r := .ok (haltRun (setPc s (s.pc + 1)))) rfl h
  | ret => exact conclude_withOut (bind_eq_map_bind fun _ => rfl) h
  | push a =>
    refine conclude_withOut (bind_eq_map_bind fun r => ?_) h
    rw [pushWith_eq, pushWith_eq]
    rfl
  | pop a => exact conclude_withOut (bind_eq_map_bind fun _ => bind_eq_map_bind fun _ => rfl) h
  | prn a => exact absurd rfl hprn
  | call a =>
    refine conclude_withOut (bind_eq_map_bind fun r => ?_) h
    rw [pushWith_eq, pushWith_eq]
    rfl
  | ldi a b => exact conclude_withOut (bind_eq_map_bind fun _ => rfl) h
  | add a b => exact conclude_withOut (aluApply_withOut .add a b s o) h
  | mul a b => exact conclude_withOut (aluApply_withOut .mul a b s o) h
  | sub a b => exact conclude_withOut (aluApply_withOut .sub a b s o) h
  | div a b => exact conclude_withOut (aluApply_withOut .div a b s o) h

/-- The states agree but for the output, which grew from `s.out` in the one and from `o` in the
other by the same bytes. -/
def EmitsAlike (s : State) (o : List Byte) (t t' : State) : Prop :=
  ∃ d, t.out = s.out ++ d ∧ t' = withOut t (o ++ d)

theorem emitsAlike_of_silent {s t : State} (o : List Byte) (h : t.out = s.out) :
    EmitsAlike s o t (withOut t o) :=
  ⟨[], by rw [h, List.append_nil], by rw [List.append_nil]⟩

theorem exec_emitsAlike {i : Instr} {s t : State} (o : List Byte) (h : exec i s = .next t) :
    ∃ t', exec i (withOut s o) = .next t' ∧ EmitsAlike s o t t' := by
  by_cases hprn : i.op = .prn
  · cases i <;> cases hprn
    next a =>
    rcases Nat.lt_or_ge a.toNat 8 with ha | ha
    · cases (exec_prn_legal s ha).symm.trans h
      exact ⟨_, exec_prn_legal (withOut s o) ha, [readReg s (regOf a)], rfl, rfl⟩
    · cases (exec_prn_illegal s ha).symm.trans h
      exact ⟨_, exec_prn_illegal (withOut s o) ha, emitsAlike_of_silent o rfl⟩
  · exact ⟨_, exec_withOut hprn o h, emitsAlike_of_silent o (exec_out h hprn)⟩

/-- Settles O43: `exec_emitsAlike` for the handlers; a state left early has emitted nothing. -/
theorem outputIsNeverRead : Obligations.OutputIsNeverRead := by
  intro s t o hst
  have hexec : HandlersRelated s o (EmitsAlike s o) := by
    intro i v hv
    obtain ⟨v', hv', d, hd, rfl⟩ := exec_emitsAlike o hv
    exact ⟨_, hv', rfl, d, hd, rfl⟩
  obtain ⟨t', hstep, d, hd, rfl⟩ :=
    step_simulated (x := s.ir) (y := s.latchA) (z := s.latchB)
      (fun st => emitsAlike_of_silent o rfl) hexec hst
  exact ⟨d, hd, hstep⟩

end Sys2Proof.Machine

/-! PROOFS. Two instructions in a row: PUSH and POP, CALL and RET, LDI and PRN (the derivations of
44_stack.md, 45_subroutine.md and 41_load_and_print.md). -/

namespace Sys2Proof.Machine

/-! ## Registers after a write -/

theorem readReg_writeReg (s : State) (r q : Reg) (v : Int) :
    readReg (writeReg s r v) q = if q = r then trunc8 v else readReg s q := by
  split
  · next h => rw [h, readReg_writeReg_same]
  · next h => exact readReg_writeReg_other s v h

theorem readReg_incSp (s : State) (r : Reg) :
    readReg (incSp s) r = if r = sp then readReg s sp + 1 else readReg s r := by
  rw [incSp, readReg_writeReg, trunc8_toNat_add_one]

/-! ## Push, then pop -/

/-- The state in which PUSH and CALL have stored `v`, before they set `pc`. -/
def pushed (s : State) (v : Byte) : State :=
  setMem (writeReg s sp ((readReg s sp).toNat - 1))
    (Memory.write s.mem (readReg s sp - 1).toNat v)

theorem readReg_pushed (s : State) (v : Byte) (r : Reg) :
    readReg (pushed s v) r = if r = sp then readReg s sp - 1 else readReg s r := by
  rw [pushed, readReg_setMem, readReg_decrementSp]

/-- SP's increment undoes its decrement, modulo 256. -/
theorem readReg_incSp_of_decremented {s t : State}
    (h : ∀ r, readReg t r = if r = sp then readReg s sp - 1 else readReg s r) (r : Reg) :
    readReg (incSp t) r = readReg s r := by
  rw [readReg_incSp, h, h, if_pos rfl]
  split
  · next hr => rw [hr, BitVec.sub_add_cancel]
  · rfl

/-- The pushed byte is at the top of the stack: in a canonical memory a cell holds what was
written to it, 0 included. -/
theorem read_pushed_top {s : State} (hwf : Memory.wf s.mem = true) (v : Byte) :
    Memory.read (pushed s v).mem (readReg (pushed s v) sp).toNat = v := by
  rw [readReg_pushed, if_pos rfl]
  exact Memory.read_write_same hwf _ v

/-- Settles O53: POP loads into `R[a]` the byte that PUSH stored (`read_pushed_top`), which is what
`R[a]` holds after the decrement, and the increment restores SP. -/
theorem pushThenPopIsIdentity : Obligations.PushThenPopIsIdentity := by
  intro a s hwf ha
  refine ⟨_, _, exec_push_legal s ha, exec_pop_legal _ ha, fun r => ?registers, rfl,
    Memory.read_write_same hwf _ _, fun addr haddr => Memory.read_write_other s.mem _ haddr, rfl,
    rfl⟩
  case registers =>
    refine readReg_incSp_of_decremented (fun q => ?_) r
    rw [readReg_writeReg, trunc8_byte]
    split
    · next hq =>
      rw [hq]
      exact read_pushed_top hwf _
    · exact readReg_decrementSp s q

/-- Settles O54: RET jumps to the byte that CALL stored (`read_pushed_top`), which is the address
after the CALL (`returnByte_toNat`), and its increment restores SP. -/
theorem callThenRetReturns : Obligations.CallThenRetReturns := by
  intro a s hwf ha hpc
  refine ⟨_, _, exec_call_legal s ha, exec_ret_completes _, rfl, ?returns, fun r => ?registers⟩
  case returns =>
    have htop := congrArg BitVec.toNat (read_pushed_top hwf (returnByte s))
    exact htop.trans (returnByte_toNat hpc)
  case registers =>
    exact readReg_incSp_of_decremented (readReg_pushed s (returnByte s)) r

/-- Settles O55: PRN appends what LDI wrote, the immediate unreduced. -/
theorem ldiThenPrnRoundTrips : Obligations.LdiThenPrnRoundTrips := by
  intro a v s ha
  have hload : readReg (writeReg s (regOf a) (immOperand v)) (regOf a) = v := by
    rw [readReg_writeReg_same, immOperand, trunc8_byte]
  exact ⟨_, _, exec_ldi_legal s v ha, exec_prn_legal _ ha, hload,
    congrArg (fun b => s.out ++ [b]) hload, rfl⟩

end Sys2Proof.Machine
